-- ==== Sys2Proof/Word.lean ====
section
/-! DEFINITION. The word types of XRPE (00_scope.md R7): the byte, the 16-bit unsigned integer and the
byte string. Byte order and bit fields are in Machine/Operands.lean. -/

namespace Sys2Proof

/-- A byte (R7): 8 bits, bit 0 the least significant. -/
abbrev Byte := BitVec 8

/-- A `u16` (R7): an unsigned integer modulo 2^16. -/
abbrev Half := BitVec 16

/-- `Bytes` (R7): a finite sequence of bytes, index 0 first on the wire. -/
abbrev Bytes := List Byte

end Sys2Proof
end

