-- ==== Sys2Proof/Config.lean ====
section
/-! DEFINITION. The parameters of XRPE (00_scope.md R5): the record `Cfg` as plain data, its
constraints, the uninterpreted checksum functions, the free bytes of the elements the
RefreshScheduler stages, and the test configuration `CFG_T` of 95_test_vectors.md. -/

namespace Sys2Proof

/-- The destination of an inbound variant (R20, R160 to R175): the fifteen variants XRT names, and
`other j` for the rows `F.OTHER[j]` it does not name. -/
inductive Field where
  | gameStatus | gameResult | robotHp | dartStatus | fieldEvents | robotStatus | powerHeat
  | position | buffs | damage | launcherData | bulletsRemaining | rfid | clientMaps | keyboardMouse
  | other (j : Nat)
deriving DecidableEq, Repr

/-- Whether the variant can have register `T[k]` for its destination: the destination of `F.OTHER[j]` is
`T[j]`, with `j` from 15 on (R175); the named variants' registers have names and no fixed numbers (R20). -/
def Field.standsAt (k : Nat) : Field → Bool
  | .other j => decide (15 ≤ j ∧ j = k)
  | _ => true

/-- One row of `CMD_TABLE` (R5, R89): command id, destination field, fixed payload size. -/
structure CmdRow where
  id : Half
  field : Field
  size : Nat
deriving DecidableEq, Repr

/-- Which checksum function a configuration uses (R120, R121: any pure function). `reference` is the
default of R128 or R129, from general knowledge; `uninterpreted n` is a function about which nothing
is known. Log entry 3. -/
inductive CrcSel where
  | reference
  | uninterpreted (n : Nat)
deriving DecidableEq, Repr

/-- An uninterpreted `crc8(bytes, init)` (R120). Nothing in Lean can evaluate it. Log entry 3. -/
opaque Config.crc8Open : Nat → Bytes → Byte → Byte

/-- An uninterpreted `crc16(bytes, init)` (R121). Nothing in Lean can evaluate it. Log entry 3. -/
opaque Config.crc16Open : Nat → Bytes → Half → Half

/-- The parameters of R5. The two checksum functions are named by a selector, so that the record is
plain data; `NCMD` is the length of `cmdTable`. The rows of `cmdTable` stand in the order of their
destinations: row `k`, from 0, is the one whose destination is `T[k]` (log entry 9). -/
structure Cfg where
  sof : Byte
  crc8Fn : CrcSel
  crc8Init : Byte
  crc16Fn : CrcSel
  crc16Init : Half
  cmdTable : List CmdRow
  outerCmdId : Half
  subDelete : Half
  subDraw1 : Half
  subDraw2 : Half
  subDraw5 : Half
  subDraw7 : Half
  subString : Half
  graphicBytes : Nat
  labelBytes : Nat
  deleteBytes : Nat
  inertSlot : Bytes
  capG : Nat
  capL : Nat
  capD : Nat
  dropcntW : Nat
  rxbufMax : Nat
  tReset : List Bytes
deriving DecidableEq, Repr

namespace Cfg

/-- `NCMD` (R5): the number of rows of the command table. -/
def ncmd (c : Cfg) : Nat := c.cmdTable.length

/-- The largest body of an outbound frame (R5, R30). -/
def maxBody (c : Cfg) : Nat := max c.deleteBytes (max (7 * c.graphicBytes) c.labelBytes)

/-- `TXB_MAX` (R30). -/
def txbMax (c : Cfg) : Nat := 15 + c.maxBody

/-- The constraints of R5 on a configuration, with R175's on the rows it numbers, the derived one last. `9 + SZ <= RXBUF_MAX` is not
among them: R5 asks it "for a frame ever to fit" (log entry 12). -/
abbrev WF (c : Cfg) : Prop :=
  (c.cmdTable.map CmdRow.id).Nodup ∧ (c.cmdTable.map CmdRow.field).Nodup ∧
  (∀ r ∈ c.cmdTable.zipIdx, r.1.field.standsAt r.2 = true) ∧
  c.tReset.map List.length = c.cmdTable.map CmdRow.size ∧
  1 ≤ c.graphicBytes ∧ 1 ≤ c.labelBytes ∧ 1 ≤ c.deleteBytes ∧
  c.inertSlot.length = c.graphicBytes ∧
  3 ≤ c.capG ∧ 7 ≤ c.capL ∧ 1 ≤ c.capD ∧
  1 ≤ c.dropcntW ∧ 1 ≤ c.rxbufMax ∧
  6 + c.maxBody ≤ 65535

/-- The constraints as a test the machine makes (93_implementation_defined.md U12). -/
def wf (c : Cfg) : Bool := decide c.WF

/-- The six outbound sub-command ids. R5 does not require them distinct ("distinctness is needed for
the receiver to tell them apart"); the statement that decoding inverts encoding does. -/
def subIds (c : Cfg) : List Half :=
  [c.subDelete, c.subDraw1, c.subDraw2, c.subDraw5, c.subDraw7, c.subString]

end Cfg

/-- The operation mode of a staged graphic (44_environment.md R260). -/
inductive GraphicOp where
  | add | rewrite
deriving DecidableEq, Repr

/-- The three recognised values of a mode (44_environment.md R267). -/
inductive Highlight where
  | first | second | third
deriving DecidableEq, Repr

/-- What the RefreshScheduler stages (44_environment.md R263 to R270): the kind of element, without
its geometry, which the source does not give (91_not_in_source.md N14). -/
inductive Shape where
  | headingLine
  | chassisMode (h : Highlight)
  | capacitorArc (online : Bool)
  | turretMode (h : Highlight)
  | safetyMode (h : Highlight)
  | fireRateMode (h : Highlight)
  | inputMethod (mouseKeyboard : Bool)
  | dividerLine
  | legend (n : Nat)
  | title (n : Nat)
deriving DecidableEq, Repr

/-- The screen-geometry value (44_environment.md R298). The source gives it no widths of its own. -/
structure Screen where
  width : Nat
  height : Nat
deriving DecidableEq, Repr

/-- Byte `i` of the serialised element of a shape, drawn as free value number `draw` on a screen (`none`:
no geometry supplied yet): the source gives no coordinate formula and no layout (N9, N14). Nothing in
Lean can evaluate it. Log entry 16. -/
opaque Config.elementByte : (draw : Nat) → Option Screen → Shape → GraphicOp → (i : Nat) → Byte

/-- `CFG_T` of 95_test_vectors.md: the spec's test configuration. None of it is from XRT: ids, sizes
of elements and checksums are from general knowledge, the rest is invented there for testing. -/
def Config.cfgT : Cfg where
  sof := 0xA5
  crc8Fn := .reference
  crc8Init := 0xFF
  crc16Fn := .reference
  crc16Init := 0xFFFF
  cmdTable := [⟨0x0001, .gameStatus, 3⟩, ⟨0x0002, .gameResult, 1⟩, ⟨0x0201, .robotStatus, 4⟩]
  outerCmdId := 0x0301
  subDelete := 0x0100
  subDraw1 := 0x0101
  subDraw2 := 0x0102
  subDraw5 := 0x0103
  subDraw7 := 0x0104
  subString := 0x0110
  graphicBytes := 15
  labelBytes := 45
  deleteBytes := 2
  inertSlot := List.replicate 15 0
  capG := 8
  capL := 7
  capD := 2
  dropcntW := 32
  rxbufMax := 256
  tReset := [[0, 0, 0], [0], [0, 0, 0, 0]]

end Sys2Proof
end

