-- ==== Sys2Proof/Syntax.lean ====
section
/-! DEFINITION. The instructions of XRPE: one constructor for each row of spec/opcode_table.json, the
form in which an instruction is presented (`Code`), and the reasons a decoder rejects one. -/

namespace Sys2Proof

/-- The fields of an inbound frame that its command id leaves open (30_encoding.md R80): the start
byte and the header checksum are fixed by the others. -/
structure WireFrame where
  dataLength : Half
  seq : Byte
  payload : Bytes
  trailer : Half
deriving DecidableEq, Repr

/-- The instructions of XRPE, one constructor for each row of spec/opcode_table.json. -/
inductive Instr where
  -- port operations, 30_encoding.md R96
  | reset
  | decode (rx : Bytes)
  | pushGraphic (e : Bytes)
  | pushLabel (e : Bytes)
  | pushDelete (e : Bytes)
  | popDelete
  | popGraphic
  | popLabel
  | graphicCount
  | pack (sender : Half)
  | setOffline
  | restart
  | readField (k : Half)
  | readStatus
  | readDropcnt
  | portReserved
  -- inbound wire instructions, 41_demux_decode.md R160 to R176
  | fGameStatus (f : WireFrame)
  | fGameResult (f : WireFrame)
  | fRobotHp (f : WireFrame)
  | fDartStatus (f : WireFrame)
  | fFieldEvents (f : WireFrame)
  | fRobotStatus (f : WireFrame)
  | fPowerHeat (f : WireFrame)
  | fPosition (f : WireFrame)
  | fBuffs (f : WireFrame)
  | fDamage (f : WireFrame)
  | fLauncherData (f : WireFrame)
  | fBulletsRemaining (f : WireFrame)
  | fRfid (f : WireFrame)
  | fClientMaps (f : WireFrame)
  | fKeyboardMouse (f : WireFrame)
  | fOther (j : Nat) (f : WireFrame)
  | fUnknown (dataLength : Half) (seq : Byte) (id : Half)
  -- outbound UI frames, 30_encoding.md R90, R91
  | uiDelete (sender : Half) (body : Bytes)
  | uiDraw1 (sender : Half) (body : Bytes)
  | uiDraw2 (sender : Half) (body : Bytes)
  | uiDraw5 (sender : Half) (body : Bytes)
  | uiDraw7 (sender : Half) (body : Bytes)
  | uiString (sender : Half) (body : Bytes)
deriving DecidableEq, Repr

/-- The six outbound sub-commands (R91). -/
inductive UiKind where
  | delete | draw1 | draw2 | draw5 | draw7 | string
deriving DecidableEq, Repr

/-- The wire instruction that a frame of the variant with destination `k` is (R160 to R175). -/
def Instr.ofField (k : Field) (f : WireFrame) : Instr :=
  match k with
  | .gameStatus => .fGameStatus f
  | .gameResult => .fGameResult f
  | .robotHp => .fRobotHp f
  | .dartStatus => .fDartStatus f
  | .fieldEvents => .fFieldEvents f
  | .robotStatus => .fRobotStatus f
  | .powerHeat => .fPowerHeat f
  | .position => .fPosition f
  | .buffs => .fBuffs f
  | .damage => .fDamage f
  | .launcherData => .fLauncherData f
  | .bulletsRemaining => .fBulletsRemaining f
  | .rfid => .fRfid f
  | .clientMaps => .fClientMaps f
  | .keyboardMouse => .fKeyboardMouse f
  | .other j => .fOther j f

/-- The outbound frame of a sub-command (R91). -/
def Instr.ofUi (k : UiKind) (sender : Half) (body : Bytes) : Instr :=
  match k with
  | .delete => .uiDelete sender body
  | .draw1 => .uiDraw1 sender body
  | .draw2 => .uiDraw2 sender body
  | .draw5 => .uiDraw5 sender body
  | .draw7 => .uiDraw7 sender body
  | .string => .uiString sender body

/-- An instruction as its bits: a port transaction (4-bit code and operand bytes, R96), an inbound
frame (R80), an outbound frame (R90). -/
inductive Code where
  | port (op : BitVec 4) (operand : Bytes)
  | inbound (frame : Bytes)
  | outbound (frame : Bytes)
deriving DecidableEq, Repr

/-- Why a decoder rejects a code. -/
inductive DecodeError where
  /-- A port transaction whose operand bytes are not the operand of its code (R96; log entry 4). -/
  | operandLength (op : BitVec 4)
  /-- Byte 0 of an inbound frame is not `SOF`: the scan skips it (R94 (a)). -/
  | notSof
  /-- `HDRCHK` fails: noise, never fatal (R94 (b)). -/
  | headerBad
  /-- The bytes end inside the header, the command id or the frame (R144, R146, R150), or go on after
  the frame. -/
  | wrongLength
  /-- An outbound frame whose fixed fields are not those PF writes (R90, R231 to R233). -/
  | notUiFrame
  /-- An outbound frame whose sub-command id is none of the six (R91). -/
  | unknownSubCommand (sub : Half)
deriving DecidableEq, Repr

end Sys2Proof
end

