-- ==== Sys2Proof/Machine/Operands.lean ====
section
/-! DEFINITION. The operand forms of XRPE: 16-bit fields in little-endian bytes (00_scope.md R8,
20_memory.md R52, R53), byte ranges of a buffer (R7), and the rows of the command and sub-command
tables that give an operand its size (30_encoding.md R89, R91). -/

namespace Sys2Proof

/-- `le16(v)` (R8): the two bytes of `v`, low byte first. -/
def le16 (v : Half) : Bytes := [v.extractLsb' 0 8, v.extractLsb' 8 8]

/-- `rd16(b, i) = b[i] + 256 * b[i+1]` (R8, R53). R8 defines it for `i + 1 < |b|` only; every use
stands behind that comparison (R56). -/
def rd16 (b : Bytes) (i : Nat) : Half := b.getD (i + 1) 0 ++ b.getD i 0

/-- The `n` bytes of `b` from index `i` on: `b[i .. i+n-1]` (R7). -/
def slice (b : Bytes) (i n : Nat) : Bytes := (b.drop i).take n

namespace Cfg

/-- `lookup(CMD_TABLE, id)` (R89, R147). Ids are pairwise distinct, so the first row is the only one. -/
def lookup (c : Cfg) (id : Half) : Option CmdRow := c.cmdTable.find? fun r => r.id == id

/-- The row of the command table whose destination is `k` (R20). -/
def rowOf (c : Cfg) (k : Field) : Option CmdRow := c.cmdTable.find? fun r => r.field == k

/-- The number of the register that is the destination of `k`: the place of its row, since the table
stands in the order of the destinations (R5, R20; log entry 9). For `F.OTHER[j]` it is `j` (R175). -/
def regOf (c : Cfg) (k : Field) : Option Nat := c.cmdTable.findIdx? fun r => r.field == k

/-- The sub-command id of R91. -/
def subId (c : Cfg) : UiKind → Half
  | .delete => c.subDelete
  | .draw1 => c.subDraw1
  | .draw2 => c.subDraw2
  | .draw5 => c.subDraw5
  | .draw7 => c.subDraw7
  | .string => c.subString

/-- The body size of R91. -/
def bodyBytes (c : Cfg) : UiKind → Nat
  | .delete => c.deleteBytes
  | .draw1 => 1 * c.graphicBytes
  | .draw2 => 2 * c.graphicBytes
  | .draw5 => 5 * c.graphicBytes
  | .draw7 => 7 * c.graphicBytes
  | .string => c.labelBytes

/-- The sub-command with a given id, the first of R91's table where two ids are equal (R5 does not
forbid that). -/
def uiKindOf (c : Cfg) (sub : Half) : Option UiKind :=
  [UiKind.delete, .draw1, .draw2, .draw5, .draw7, .string].find? fun k => c.subId k == sub

end Cfg

end Sys2Proof
end

