-- ==== Sys2Proof/Machine/Crc.lean ====
section
/-! DEFINITION. The two checksum functions (40_crc_header_validator.md R120, R121) and their reference
instances (R128, R129, from general knowledge). -/

namespace Sys2Proof

/-- `n` bits of the reference `crc8` (R128): reflected polynomial 0x8C. The test stands outside the
recursion, so that evaluation goes bit by bit. -/
def crc8Bits : Nat → BitVec 8 → BitVec 8
  | 0, c => c
  | n + 1, c => if c.getLsbD 0 then crc8Bits n ((c >>> 1) ^^^ 0x8C#8) else crc8Bits n (c >>> 1)

/-- The reference `crc8(bytes, init)` (R128). -/
def crc8Reference (bytes : Bytes) (init : Byte) : Byte :=
  bytes.foldl (fun c b => crc8Bits 8 (c ^^^ b)) init

/-- `n` bits of the reference `crc16` (R129): reflected polynomial 0x8408. -/
def crc16Bits : Nat → BitVec 16 → BitVec 16
  | 0, c => c
  | n + 1, c => if c.getLsbD 0 then crc16Bits n ((c >>> 1) ^^^ 0x8408#16) else crc16Bits n (c >>> 1)

/-- The reference `crc16(bytes, init)` (R129): each byte goes into the low 8 bits. -/
def crc16Reference (bytes : Bytes) (init : Half) : Half :=
  bytes.foldl (fun c b => crc16Bits 8 (c ^^^ b.setWidth 16)) init

/-- `crc8(bytes, CRC8_INIT)` of a configuration (R120). -/
def Cfg.crc8 (c : Cfg) (bytes : Bytes) : Byte :=
  match c.crc8Fn with
  | .reference => crc8Reference bytes c.crc8Init
  | .uninterpreted n => Config.crc8Open n bytes c.crc8Init

/-- `crc16(bytes, CRC16_INIT)` of a configuration (R121). -/
def Cfg.crc16 (c : Cfg) (bytes : Bytes) : Half :=
  match c.crc16Fn with
  | .reference => crc16Reference bytes c.crc16Init
  | .uninterpreted n => Config.crc16Open n bytes c.crc16Init

end Sys2Proof
end

