-- ==== Sys2Proof/Machine/Frames.lean ====
section
/-! DEFINITION. HV and the frame formats: the header validator and generator, the frame check and
trailer generator (40_crc_header_validator.md R122 to R125), an inbound frame's bytes (30_encoding.md
R80), and an outbound UI frame's bytes (R90; 43_packet_framer.md R229 to R233). The pseudo-operations
of R99 are `Cfg.hdrGen` (HDR), `Cfg.framed` (FRAMEQ, and FRAME with the true length and `seq` 0) and
`Cfg.uiFrame` (UIFRAME). -/

namespace Sys2Proof
namespace Cfg

/-- `HDRCHK(h)` (R122): `h` is 5 bytes, starts with `SOF`, and its last byte is the checksum of the
four before it. -/
def hdrChk (c : Cfg) (h : Bytes) : Bool :=
  decide (h.length = 5) && (h.getD 0 0 == c.sof) && (c.crc8 (h.take 4) == h.getD 4 0)

/-- `HDRGEN(dl, seq)` (R123). -/
def hdrGen (c : Cfg) (dl : Half) (seq : Byte) : Bytes :=
  let h4 := c.sof :: (le16 dl ++ [seq])
  h4 ++ [c.crc8 h4]

/-- `FRMCHK(f)` (R124): the checksum of everything before the trailer against the trailer read
little-endian. -/
def frmChk (c : Cfg) (f : Bytes) : Bool :=
  c.crc16 (f.take (f.length - 2)) == rd16 f (f.length - 2)

/-- `FRMGEN(pre)` (R125). -/
def frmGen (c : Cfg) (pre : Bytes) : Bytes := pre ++ le16 (c.crc16 pre)

/-- The bytes of a frame before its trailer (R80). -/
def framePre (c : Cfg) (id dl : Half) (seq : Byte) (payload : Bytes) : Bytes :=
  c.hdrGen dl seq ++ le16 id ++ payload

/-- The bytes of an inbound frame with command id `id` (R80), trailer as given. -/
def frameBytes (c : Cfg) (id : Half) (f : WireFrame) : Bytes :=
  c.framePre id f.dataLength f.seq f.payload ++ le16 f.trailer

/-- `FRAMEQ(cmd, payload, dl, seq)` (R99): a frame whose two checksums are right. -/
def framed (c : Cfg) (id dl : Half) (seq : Byte) (payload : Bytes) : Bytes :=
  c.frmGen (c.framePre id dl seq payload)

end Cfg

/-- `span = 9 + P` (R88). -/
def span (payloadBytes : Nat) : Nat := 9 + payloadBytes

/-- `receiver(sender_id)` (R229), in the two-branch form the source demands, computed on naturals and
reduced to 16 bits. -/
def receiver (sender : Half) : Half :=
  if sender.toNat > 100 then BitVec.ofNat 16 (sender.toNat - 101 + 0x0165)
  else BitVec.ofNat 16 (sender.toNat + 0x0100)

/-- `data_length` of an outbound frame (R230): the 6 bytes of the sub-header and the body. -/
def uiDataLength (body : Bytes) : Half := BitVec.ofNat 16 (6 + body.length)

/-- The outbound frame of R231 to R233: header with `seq` 0, outer command id, sub-header, body,
trailer. -/
def Cfg.uiFrame (c : Cfg) (sub sender : Half) (body : Bytes) : Bytes :=
  c.frmGen (c.hdrGen (uiDataLength body) 0 ++ le16 c.outerCmdId ++
    (le16 sub ++ le16 sender ++ le16 (receiver sender)) ++ body)

end Sys2Proof
end

