-- ==== Sys2Proof/WellFormed.lean ====
section
/-! DEFINITION. Which terms of `Instr` are instructions of a given configuration: the operand has the
size the spec gives it, a wire frame's variant has a row in the command table. -/

namespace Sys2Proof

/-- A frame of the variant with destination `k`: the variant has a row, and the payload has the
row's fixed size (R86, R89). -/
def WireFrame.fits (c : Cfg) (k : Field) (f : WireFrame) : Bool :=
  match c.rowOf k with
  | some r => f.payload.length == r.size
  | none => false

/-- The operands of each instruction are ones the spec gives it: R96 for the port operations, R160 to
R176 for the inbound frames, R91 for the outbound frames. -/
def Instr.wellFormed (c : Cfg) : Instr → Bool
  | .reset => true
  | .decode rx => decide (rx.length ≤ c.rxbufMax)
  | .pushGraphic e => e.length == c.graphicBytes
  | .pushLabel e => e.length == c.labelBytes
  | .pushDelete e => e.length == c.deleteBytes
  | .popDelete => true
  | .popGraphic => true
  | .popLabel => true
  | .graphicCount => true
  | .pack _ => true
  | .setOffline => true
  | .restart => true
  | .readField k => decide (k.toNat < c.ncmd)
  | .readStatus => true
  | .readDropcnt => true
  | .portReserved => true
  | .fGameStatus f => f.fits c .gameStatus
  | .fGameResult f => f.fits c .gameResult
  | .fRobotHp f => f.fits c .robotHp
  | .fDartStatus f => f.fits c .dartStatus
  | .fFieldEvents f => f.fits c .fieldEvents
  | .fRobotStatus f => f.fits c .robotStatus
  | .fPowerHeat f => f.fits c .powerHeat
  | .fPosition f => f.fits c .position
  | .fBuffs f => f.fits c .buffs
  | .fDamage f => f.fits c .damage
  | .fLauncherData f => f.fits c .launcherData
  | .fBulletsRemaining f => f.fits c .bulletsRemaining
  | .fRfid f => f.fits c .rfid
  | .fClientMaps f => f.fits c .clientMaps
  | .fKeyboardMouse f => f.fits c .keyboardMouse
  | .fOther j f => f.fits c (.other j)
  | .fUnknown _ _ id => (c.lookup id).isNone
  | .uiDelete _ body => body.length == c.bodyBytes .delete
  | .uiDraw1 _ body => body.length == c.bodyBytes .draw1
  | .uiDraw2 _ body => body.length == c.bodyBytes .draw2
  | .uiDraw5 _ body => body.length == c.bodyBytes .draw5
  | .uiDraw7 _ body => body.length == c.bodyBytes .draw7
  | .uiString _ body => body.length == c.bodyBytes .string

end Sys2Proof
end

