-- ==== Sys2Proof/Decode.lean ====
section
/-! DEFINITION. The decoder of XRPE, total on any bytes and rejecting by name, and after it the
encoder (30_encoding.md). `decodeWire` is the decoder the scan of `DECODE` uses at its cursor
(41_demux_decode.md R140); `decode` reads one instruction from one code. -/

namespace Sys2Proof

/-- What stands at the cursor of a scan (41_demux_decode.md R140, one constructor for each exit of the
loop's body). -/
inductive WireStep where
  /-- No byte is left (R154). -/
  | exhausted
  /-- The byte is not `SOF` (R142). -/
  | skip
  /-- `SOF`, but fewer than 5 bytes are left (R144). -/
  | headerCut
  /-- `SOF`, and `HDRCHK` fails (R143). -/
  | headerBad
  /-- A valid header, but the command id is cut off (R146). -/
  | idCut
  /-- A valid header and an id without a row (R148). -/
  | unknown (dataLength : Half) (seq : Byte) (id : Half)
  /-- A known id, but the frame is cut off (R150). -/
  | frameCut
  /-- A whole frame of the variant of a row (R151, R152). -/
  | frame (row : CmdRow) (f : WireFrame)
deriving DecidableEq, Repr

/-- The fields of the frame that starts `b` (R57), its payload `size` bytes. -/
def wireFields (b : Bytes) (size : Nat) : WireFrame where
  dataLength := rd16 b 1
  seq := b.getD 3 0
  payload := slice b 7 size
  trailer := rd16 b (7 + size)

/-- The checks of R140 on the bytes from the cursor on, in the fixed order of R321. -/
def decodeWire (c : Cfg) (b : Bytes) : WireStep :=
  match b with
  | [] => .exhausted
  | b0 :: _ =>
    if b0 ≠ c.sof then .skip
    else if b.length < 5 then .headerCut
    else if c.hdrChk (b.take 5) = false then .headerBad
    else if b.length < 7 then .idCut
    else
      match c.lookup (rd16 b 5) with
      | none => .unknown (rd16 b 1) (b.getD 3 0) (rd16 b 5)
      | some row =>
        if b.length < span row.size then .frameCut else .frame row (wireFields b row.size)

/-- An operation without operands (R96). -/
def decodePlain (op : BitVec 4) (operand : Bytes) (i : Instr) : Except DecodeError Instr :=
  if operand = [] then .ok i else .error (.operandLength op)

/-- An operation whose operand is `n` bytes. -/
def decodeSized (op : BitVec 4) (operand : Bytes) (n : Nat) (i : Instr) :
    Except DecodeError Instr :=
  if operand.length = n then .ok i else .error (.operandLength op)

/-- A port transaction (R96): the code and the operand bytes. A u16 operand is two bytes,
little-endian (log entry 4). -/
def decodePort (c : Cfg) (op : BitVec 4) (operand : Bytes) : Except DecodeError Instr :=
  match op.toNat with
  | 0x0 => decodePlain op operand .reset
  | 0x1 => .ok (.decode operand)
  | 0x2 => decodeSized op operand c.graphicBytes (.pushGraphic operand)
  | 0x3 => decodeSized op operand c.labelBytes (.pushLabel operand)
  | 0x4 => decodeSized op operand c.deleteBytes (.pushDelete operand)
  | 0x5 => decodePlain op operand .popDelete
  | 0x6 => decodePlain op operand .popGraphic
  | 0x7 => decodePlain op operand .popLabel
  | 0x8 => decodePlain op operand .graphicCount
  | 0x9 => decodeSized op operand 2 (.pack (rd16 operand 0))
  | 0xA => decodePlain op operand .setOffline
  | 0xB => decodePlain op operand .restart
  | 0xC => decodeSized op operand 2 (.readField (rd16 operand 0))
  | 0xD => decodePlain op operand .readStatus
  | 0xE => decodePlain op operand .readDropcnt
  | _ => decodePlain op operand .portReserved

/-- An inbound frame, the whole of `b` (R80). Of a frame with an unknown id the header and the id are
the instruction; its payload and trailer are not read (R148, R176). -/
def decodeInbound (c : Cfg) (b : Bytes) : Except DecodeError Instr :=
  match decodeWire c b with
  | .exhausted => .error .wrongLength
  | .skip => .error .notSof
  | .headerCut => .error .wrongLength
  | .headerBad => .error .headerBad
  | .idCut => .error .wrongLength
  | .unknown dl seq id => if b.length = 7 then .ok (.fUnknown dl seq id) else .error .wrongLength
  | .frameCut => .error .wrongLength
  | .frame row f =>
    if b.length = span row.size then .ok (Instr.ofField row.field f) else .error .wrongLength

/-- An outbound frame, the whole of `b` (R90): the sub-command, the sender and the body are read at
their offsets, and every other byte must be what PF writes there (R231 to R233). The block itself
never does this (R93); it gives the six sub-commands a reading. -/
def decodeOutbound (c : Cfg) (b : Bytes) : Except DecodeError Instr :=
  let sub := rd16 b 7
  let sender := rd16 b 9
  let body := slice b 13 (b.length - 15)
  if b ≠ c.uiFrame sub sender body then .error .notUiFrame
  else
    match c.uiKindOf sub with
    | none => .error (.unknownSubCommand sub)
    | some k =>
      if body.length = c.bodyBytes k then .ok (Instr.ofUi k sender body) else .error .wrongLength

/-- The instruction of a code. -/
def decode (c : Cfg) : Code → Except DecodeError Instr
  | .port op operand => decodePort c op operand
  | .inbound b => decodeInbound c b
  | .outbound b => decodeOutbound c b

/-- The code of an inbound frame of the variant with destination `k`. The empty frame stands for a
variant without a row, which no well-formed instruction has. -/
def encodeWire (c : Cfg) (k : Field) (f : WireFrame) : Code :=
  match c.rowOf k with
  | some r => .inbound (c.frameBytes r.id f)
  | none => .inbound []

/-- The code of an outbound frame. -/
def encodeUi (c : Cfg) (k : UiKind) (sender : Half) (body : Bytes) : Code :=
  .outbound (c.uiFrame (c.subId k) sender body)

/-- The code of an instruction, from the same tables (R96, R80, R90). -/
def encode (c : Cfg) : Instr → Code
  | .reset => .port 0x0 []
  | .decode rx => .port 0x1 rx
  | .pushGraphic e => .port 0x2 e
  | .pushLabel e => .port 0x3 e
  | .pushDelete e => .port 0x4 e
  | .popDelete => .port 0x5 []
  | .popGraphic => .port 0x6 []
  | .popLabel => .port 0x7 []
  | .graphicCount => .port 0x8 []
  | .pack sender => .port 0x9 (le16 sender)
  | .setOffline => .port 0xA []
  | .restart => .port 0xB []
  | .readField k => .port 0xC (le16 k)
  | .readStatus => .port 0xD []
  | .readDropcnt => .port 0xE []
  | .portReserved => .port 0xF []
  | .fGameStatus f => encodeWire c .gameStatus f
  | .fGameResult f => encodeWire c .gameResult f
  | .fRobotHp f => encodeWire c .robotHp f
  | .fDartStatus f => encodeWire c .dartStatus f
  | .fFieldEvents f => encodeWire c .fieldEvents f
  | .fRobotStatus f => encodeWire c .robotStatus f
  | .fPowerHeat f => encodeWire c .powerHeat f
  | .fPosition f => encodeWire c .position f
  | .fBuffs f => encodeWire c .buffs f
  | .fDamage f => encodeWire c .damage f
  | .fLauncherData f => encodeWire c .launcherData f
  | .fBulletsRemaining f => encodeWire c .bulletsRemaining f
  | .fRfid f => encodeWire c .rfid f
  | .fClientMaps f => encodeWire c .clientMaps f
  | .fKeyboardMouse f => encodeWire c .keyboardMouse f
  | .fOther j f => encodeWire c (.other j) f
  | .fUnknown dl seq id => .inbound (c.hdrGen dl seq ++ le16 id)
  | .uiDelete sender body => encodeUi c .delete sender body
  | .uiDraw1 sender body => encodeUi c .draw1 sender body
  | .uiDraw2 sender body => encodeUi c .draw2 sender body
  | .uiDraw5 sender body => encodeUi c .draw5 sender body
  | .uiDraw7 sender body => encodeUi c .draw7 sender body
  | .uiString sender body => encodeUi c .string sender body

/-- `n` zero bytes. -/
def zeros (n : Nat) : Bytes := List.replicate n 0

/-- How many operand bytes a port code has when every operand bit is 0: an empty buffer for `DECODE`
(R50 allows `len = 0`). -/
def operandBytes (c : Cfg) (op : BitVec 4) : Nat :=
  match op.toNat with
  | 0x2 => c.graphicBytes
  | 0x3 => c.labelBytes
  | 0x4 => c.deleteBytes
  | 0x9 => 2
  | 0xC => 2
  | _ => 0

/-- The code of an opcode-table row whose table bits are `w` and whose other bits are 0. A port row has
the 4 bits of its code; a wire row has the 16 bits of its command id, or of its sub-command id where no
row of the command table has that id (log entry 15). -/
def tableCode (c : Cfg) (nbits w : Nat) : Code :=
  if nbits ≤ 8 then
    .port (BitVec.ofNat 4 w) (zeros (operandBytes c (BitVec.ofNat 4 w)))
  else
    let id : Half := BitVec.ofNat 16 w
    match c.lookup id with
    | some r => .inbound (c.frameBytes id ⟨BitVec.ofNat 16 r.size, 0, zeros r.size, 0⟩)
    | none =>
      match c.uiKindOf id with
      | some k => .outbound (c.uiFrame id 0 (zeros (c.bodyBytes k)))
      | none => .inbound (c.hdrGen 0 0 ++ le16 id)

/-- The instruction the decoder reads from a row's bits, under the configuration of `State.reset`. -/
def decodeTableWord (nbits w : Nat) : Option Instr :=
  (decode Config.cfgT (tableCode Config.cfgT nbits w)).toOption

end Sys2Proof
end

