-- ==== Sys2Proof/Machine/State.lean ====
section
/-! DEFINITION. The state of XRPE as plain data (10_state.md), the state of the agents around it
(44_environment.md), the reasons a step can stop, and the state after reset (R34; 70_reset_and_hazards.md
R350). -/

namespace Sys2Proof.Machine

/-- `STATUS` (R22). -/
inductive Status where
  | offline | running
deriving DecidableEq, Repr

/-- The event codes of the mailbox (44_environment.md R286). -/
inductive Event where
  | rxDone | rxIdle | rxAbort | tickFast | tickSlow
deriving DecidableEq, Repr

/-- The three completion callbacks of the receive driver (44_environment.md R296). -/
inductive RxCallback where
  | dataReady | idleDetected | abortComplete
deriving DecidableEq, Repr

/-- What an operation returns to its caller (30_encoding.md R96, 60_exceptions.md R311). -/
inductive Result where
  /-- The operation has no result (`RESET`, `SET_OFFLINE`, `RESTART`, a tick). -/
  | nothing
  /-- `OK` of `DECODE`, a push, `SEND`. -/
  | ok
  /-- `ERR_UNKNOWN_CMD(cmd_id, at)` of `DECODE` (R313). -/
  | errUnknownCmd (id : Half) (pos : Nat)
  /-- `QUEUE_FULL` of a push (R315). -/
  | queueFull
  /-- `NOTHING_PENDING` of `PACK` (R316). -/
  | nothingPending
  /-- `NONE` of a pop. -/
  | noElement
  /-- `SOME(e)` of a pop. -/
  | element (e : Bytes)
  /-- The count of `GRAPHIC_COUNT`. -/
  | count (n : Nat)
  /-- The register read by `READ_FIELD`. -/
  | bytes (b : Bytes)
  /-- The bit read by `READ_STATUS`. -/
  | status (b : BitVec 1)
  /-- The value read by `READ_DROPCNT`. -/
  | dropcnt (n : Nat)
  /-- `OK` of `PACK`, with the frame; its length is `TXLEN`. -/
  | frame (b : Bytes)
  /-- `SEND_ERROR` of `SEND` (R317, environment). -/
  | sendError
  /-- `Err` of `start_receive()` (44_environment.md R296, environment). -/
  | receiveError
  /-- The event a `TAKE` returned (44_environment.md R285). -/
  | event (e : Event)
  /-- `TAKE` on the empty mailbox: the taker waits (44_environment.md R285). -/
  | waiting
deriving DecidableEq, Repr

/-- What the block is inside of. Between port operations it is `idle`; a `DECODE` passes through
`scanning` and a `PACK` through `framing`, each within its one atomic step (20_memory.md R59; log
entry 7). `cur` is the scan cursor of R24. -/
inductive Activity where
  | idle
  | scanning (rx : Bytes) (cur : Nat)
  | framing (sender : Half)
deriving DecidableEq, Repr

/-- The mode snapshots a fast tick reads, owned by other subsystems (44_environment.md R263 to R267):
`none` is an unrecognised mode value. -/
structure ModeSnapshot where
  chassis : Option Highlight
  turret : Option Highlight
  safety : Option Highlight
  fireRate : Option Highlight
  capacitorOnline : Bool
  mouseKeyboard : Bool
deriving DecidableEq, Repr

/-- The operations of the agents around the block (44_environment.md). The driver's answers and the
mode snapshots are inputs. -/
inductive AgentOp where
  /-- `FAST_TICK` (R262). -/
  | fastTick (m : ModeSnapshot)
  /-- `SLOW_TICK` (R270). -/
  | slowTick
  /-- `SEND(frame)` (R277); `accepted` is the transmit driver's answer. -/
  | send (frame : Bytes) (accepted : Bool)
  /-- A transfer completes; `notified` says whether the driver raises "send complete" then too, which
  R277 does not state (93_implementation_defined.md U17; log entry 25). -/
  | transferComplete (notified : Bool)
  /-- `POST(e)` (R285). -/
  | post (e : Event)
  /-- `TAKE` (R285). -/
  | take
  /-- The screen geometry is supplied to the RefreshScheduler at init (R298; 70_reset_and_hazards.md
  R351). -/
  | supplyScreen (g : Screen)
  /-- `start_receive()` of the receive driver (R296); `accepted` is its answer. -/
  | startReceive (accepted : Bool)
  /-- A completion callback of the receive driver, which has written `rx` (R286, R296). After an abort
  it is the driver's to say whether `abortComplete` comes (log entry 26). -/
  | received (rx : Bytes) (cb : RxCallback)
  /-- The driver is told to abort the receive in progress, its part of a restart (R290). -/
  | abortReceive
  /-- The consumer task issues `DECODE` of the receive buffer (R289; 20_memory.md R60). -/
  | decodeReceived
deriving DecidableEq, Repr

/-- One transaction presented to the block (00_scope.md R6). -/
inductive Input where
  /-- A port operation: its 4-bit code and its operand bytes (30_encoding.md R96). -/
  | command (op : BitVec 4) (operand : Bytes)
  /-- Two port operations at once, outside the contract (20_memory.md R59). -/
  | overlapping (op₁ : BitVec 4) (operand₁ : Bytes) (op₂ : BitVec 4) (operand₂ : Bytes)
  /-- An operation of an agent around the block. -/
  | agent (a : AgentOp)
deriving DecidableEq, Repr

/-- The state of the agents around the block (10_state.md R33). -/
structure Env where
  /-- RefreshState's phase (44_environment.md R260), a 3-bit register (R268). -/
  phase : BitVec 3
  /-- RefreshState's operation mode (R260). -/
  graphicOp : GraphicOp
  /-- The mailbox slot (R284). -/
  mailbox : Option Event
  /-- The Transmitter's in-flight buffer (R276). -/
  inflight : Option Bytes
  /-- The buffers the Transmitter has released, oldest first (R277, R279). -/
  released : List Bytes
  /-- How many "send complete" notifications have been raised (R277). -/
  sendComplete : Nat
  /-- A receive is in progress (10_state.md R33). -/
  receiving : Bool
  /-- The raw receive buffer, written by the driver alone (20_memory.md R50). -/
  rx : Bytes
  /-- The screen geometry of R298, once it is supplied. -/
  screen : Option Screen
deriving DecidableEq, Repr

/-- The state of XRPE and of the agents around it. -/
structure State where
  /-- The parameters of R5. No operation changes them (70_reset_and_hazards.md R351; log entry 1). -/
  cfg : Cfg
  /-- The telemetry field bank, one register per row of the command table (R20). -/
  T : List Bytes
  /-- `STATUS` (R22). -/
  status : Status
  /-- `DROPCNT`, below `2 ^ DROPCNT_W` (R23). -/
  dropcnt : Nat
  /-- The graphic queue, oldest element first (R25). -/
  gq : List Bytes
  /-- The label queue (R25). -/
  lq : List Bytes
  /-- The delete queue (R25). -/
  dq : List Bytes
  /-- `TXB[0 .. TXLEN-1]`, the bytes of the transmit space (20_memory.md R51; log entry 11). -/
  txb : Bytes
  /-- What the block is inside of, with the scan cursor (R24). -/
  activity : Activity
  /-- The MODEL's own: what the last operation returned (R35; log entry 6). -/
  result : Result
  /-- The MODEL's own: the transactions not yet taken, oldest first (log entry 5). -/
  inputs : List Input
  /-- The agents around the block (R33). -/
  env : Env
  /-- The MODEL's own: the number of the next free value (log entry 16). -/
  fresh : Nat
deriving DecidableEq, Repr

/-- `TXLEN` (R30). -/
def State.txlen (s : State) : Nat := s.txb.length

/-- Why a step faults. -/
inductive Fault where
  /-- `READ_FIELD k` with `k >= NCMD`: no such register (30_encoding.md R96 gives the selector the range
  `0 .. NCMD-1`). Raised by `execReadField`. Safe: the model stops. -/
  | noSuchField (k : Half)
deriving DecidableEq, Repr

/-- Why a step is refused. -/
inductive Refusal where
  /-- An instruction without a meaning. No arm of `exec` answers it. Safe. -/
  | notModelled (mnemonic : String)
  /-- Port code 0xF (30_encoding.md R96: "the model refuses it"). Raised by `execPortReserved`. Safe. -/
  | reservedPortCode
  /-- `DECODE` with `len > RXBUF_MAX` (20_memory.md R50: "is refused by the model, not given a
  meaning"). Raised by `execDecode`. Safe. -/
  | rxTooLong (len : Nat)
  /-- Two port operations at once (20_memory.md R59: "the model refuses that"). Raised by the fetch.
  Safe. -/
  | overlappingOperations
  /-- A configuration that breaks a constraint of 00_scope.md R5 (93_implementation_defined.md U12).
  Raised by the fetch. Safe. -/
  | illFormedCfg
  /-- A transaction that is no instruction. Raised by the fetch. Safe. -/
  | undecodable (e : DecodeError)
  /-- An ill-formed term: an element or a payload that has not the size the spec gives it. Raised by the
  pushes and the frame operation. No decoder produces one. Safe. -/
  | operandSize (bytes : Nat)
  /-- An ill-formed term: a frame of a variant without a row in the command table. Raised by the frame
  operation. No decoder produces one. Safe. -/
  | noCommandRow (k : Field)
deriving DecidableEq, Repr

/-- The agents at the start (10_state.md R34; 70_reset_and_hazards.md R351; log entry 17). -/
def Env.initial : Env where
  phase := 0
  graphicOp := .add
  mailbox := none
  inflight := none
  released := []
  sendComplete := 0
  receiving := false
  rx := []
  screen := none

/-- The state after reset (10_state.md R34) under a configuration. -/
def State.resetWith (c : Cfg) : State where
  cfg := c
  T := c.tReset
  status := .offline
  dropcnt := 0
  gq := []
  lq := []
  dq := []
  txb := []
  activity := .idle
  result := .nothing
  inputs := []
  env := Env.initial
  fresh := 0

/-- The state after reset (10_state.md R34), under the spec's test configuration (log entry 2). -/
def State.reset : State := State.resetWith Config.cfgT

end Sys2Proof.Machine
end

