-- ==== Sys2Proof/Machine/Flags.lean ====
section
/-! DEFINITION. The block's status flag, its counter and its result codes: the encoding of `STATUS`
(10_state.md R22), the step of `DROPCNT` (R23), the codes of 60_exceptions.md R311, and the codes of the
mailbox events (44_environment.md R286). XRPE has no arithmetic flags (10_state.md R35). -/

namespace Sys2Proof.Machine

/-- `OFFLINE = 0`, `RUNNING = 1` (R22). -/
def Status.bit : Status → BitVec 1
  | .offline => 0
  | .running => 1

/-- `DROPCNT + 1` modulo `2^DROPCNT_W` (R9 (c), R23). -/
def dropNext (c : Cfg) (n : Nat) : Nat := (n + 1) % 2 ^ c.dropcntW

/-- The 3-bit result code of R311, for the operations that return one. -/
def Result.code : Result → Option (BitVec 3)
  | .nothing => none
  | .ok => some 0
  | .errUnknownCmd _ _ => some 1
  | .queueFull => some 2
  | .nothingPending => some 3
  | .noElement => some 4
  | .element _ => some 0
  | .count _ => none
  | .bytes _ => none
  | .status _ => none
  | .dropcnt _ => none
  | .frame _ => some 0
  | .sendError => some 5
  | .receiveError => none
  | .event _ => none
  | .waiting => none

/-- The event codes of R286. -/
def Event.code : Event → Nat
  | .rxDone => 1
  | .rxIdle => 2
  | .rxAbort => 3
  | .tickFast => 4
  | .tickSlow => 5

/-- The event a completion callback posts (R286, R296). -/
def RxCallback.event : RxCallback → Event
  | .dataReady => .rxDone
  | .idleDetected => .rxIdle
  | .abortComplete => .rxAbort

end Sys2Proof.Machine
end

