-- ==== Sys2Proof/Machine/Ops.lean ====
section
/-! DEFINITION. The named operations over the block's state: results and the end of an operation
(00_scope.md R10), the status flag and the counter, the field bank, the scan cursor, the three queues and
the transmit buffer. XRPE has no trap (60_exceptions.md): what a processor calls taking an exception
is `State.finish` with an error result, and nothing returns from one (R323). -/

namespace Sys2Proof.Machine

/-- The outcome of an operation of this machine. -/
abbrev StepOutcome := Host.Outcome State Fault Refusal

namespace State

/-- An operation returns the result `r` to its caller. Nothing else holds it (R35, R311). -/
def answer (r : Result) (s : State) : State := { s with result := r }

/-- `return r`, and `raise E(info)` where `r` is an error result (R10): the operation that the block is
inside of ends with the result `r`, at once. No state is saved, no mode changes, control goes nowhere;
what the operation did before stands (60_exceptions.md R322). -/
def finish (r : Result) (s : State) : State := { s with result := r, activity := .idle }

/-- `STATUS <- v` (R22). -/
def setStatus (v : Status) (s : State) : State := { s with status := v }

/-- `DROPCNT <- DROPCNT + 1` (R23). -/
def countDrop (s : State) : State := { s with dropcnt := dropNext s.cfg s.dropcnt }

/-- `T[k] <- payload`, the whole register at once (R10, R21; 20_memory.md R58). -/
def commit (k : Nat) (payload : Bytes) (s : State) : State := { s with T := s.T.set k payload }

/-- The scan cursor, 0 where no scan is on (R24). -/
def cur (s : State) : Nat :=
  match s.activity with
  | .scanning _ cur => cur
  | .framing _ => 0
  | .idle => 0

/-- `cur <- cur + n` (R24). Outside a scan there is no cursor to move. -/
def advance (n : Nat) (s : State) : State :=
  { s with activity :=
      match s.activity with
      | .scanning rx cur => .scanning rx (cur + n)
      | .framing sender => .framing sender
      | .idle => .idle }

/-- `TxWrite(frame)` (R10): the content and the length of the transmit buffer become the frame's
(R235). -/
def txWrite (frame : Bytes) (s : State) : State := { s with txb := frame }

end State

/-- The three queues of SQ (10_state.md R25). -/
inductive Queue where
  | graphics | labels | deletes
deriving DecidableEq, Repr

/-- The capacity of a queue (R5, R25). -/
def Queue.cap (c : Cfg) : Queue → Nat
  | .graphics => c.capG
  | .labels => c.capL
  | .deletes => c.capD

/-- The size of a queue's elements (R27). -/
def Queue.elementBytes (c : Cfg) : Queue → Nat
  | .graphics => c.graphicBytes
  | .labels => c.labelBytes
  | .deletes => c.deleteBytes

namespace State

/-- The elements of a queue, oldest first (R25). -/
def queue (s : State) : Queue → List Bytes
  | .graphics => s.gq
  | .labels => s.lq
  | .deletes => s.dq

/-- A queue's new elements; the other two stand (R25, 42_staging_queue.md R198). -/
def setQueue (q : Queue) (es : List Bytes) (s : State) : State :=
  match q with
  | .graphics => { s with gq := es }
  | .labels => { s with lq := es }
  | .deletes => { s with dq := es }

/-- Append an element, or leave the queue as it is where it is full (42_staging_queue.md R191 to R193). -/
def enqueue (q : Queue) (e : Bytes) (s : State) : State :=
  if (s.queue q).length = q.cap s.cfg then s else s.setQueue q (s.queue q ++ [e])

end State

/-- The push of 42_staging_queue.md R191 to R193: `QUEUE_FULL` exactly when the count is the capacity.
An element of another size is no operand of the push (R191). -/
def push (q : Queue) (e : Bytes) (s : State) : StepOutcome :=
  if e.length ≠ q.elementBytes s.cfg then .refused (.operandSize e.length)
  else if (s.queue q).length = q.cap s.cfg then .next (s.answer .queueFull)
  else .next ((s.enqueue q e).answer .ok)

/-- The pop of 42_staging_queue.md R194 to R196. -/
def pop (q : Queue) (s : State) : StepOutcome :=
  match s.queue q with
  | [] => .next (s.answer .noElement)
  | e :: rest => .next ((s.setQueue q rest).answer (.element e))

/-- The end of a candidate frame inside a scan or given alone (41_demux_decode.md R151 to R153, the
template of R160 to R175): commit on a right trailer, else count a dropped frame, then move the cursor
past the span. The frame's bytes are rebuilt from its fields; the header checksum among them is the one
`HDRCHK` found right (log entry 20). -/
def wireFrame (k : Field) (f : WireFrame) (s : State) : StepOutcome :=
  match s.cfg.rowOf k, s.cfg.regOf k with
  | some row, some reg =>
    if f.payload.length ≠ row.size then .refused (.operandSize f.payload.length)
    else if s.cfg.frmChk (s.cfg.frameBytes row.id f) then
      .next ((s.commit reg f.payload).advance (span row.size))
    else .next (s.countDrop.advance (span row.size))
  | _, _ => .refused (.noCommandRow k)

end Sys2Proof.Machine
end

