-- ==== Sys2Proof/Machine/Wire.lean ====
section
/-! DEFINITION. The wire instructions (41_demux_decode.md R160 to R176): one meaning for each variant,
each the template of section 3 with its own destination, and the abort on an unknown command id. -/

namespace Sys2Proof.Machine

/-- `F.GAME_STATUS` (R160). -/
def execFGameStatus (f : WireFrame) (s : State) : StepOutcome := wireFrame .gameStatus f s

/-- `F.GAME_RESULT` (R161). -/
def execFGameResult (f : WireFrame) (s : State) : StepOutcome := wireFrame .gameResult f s

/-- `F.ROBOT_HP` (R162). -/
def execFRobotHp (f : WireFrame) (s : State) : StepOutcome := wireFrame .robotHp f s

/-- `F.DART_STATUS` (R163). -/
def execFDartStatus (f : WireFrame) (s : State) : StepOutcome := wireFrame .dartStatus f s

/-- `F.FIELD_EVENTS` (R164). -/
def execFFieldEvents (f : WireFrame) (s : State) : StepOutcome := wireFrame .fieldEvents f s

/-- `F.ROBOT_STATUS` (R165). -/
def execFRobotStatus (f : WireFrame) (s : State) : StepOutcome := wireFrame .robotStatus f s

/-- `F.POWER_HEAT` (R166). -/
def execFPowerHeat (f : WireFrame) (s : State) : StepOutcome := wireFrame .powerHeat f s

/-- `F.POSITION` (R167). -/
def execFPosition (f : WireFrame) (s : State) : StepOutcome := wireFrame .position f s

/-- `F.BUFFS` (R168). -/
def execFBuffs (f : WireFrame) (s : State) : StepOutcome := wireFrame .buffs f s

/-- `F.DAMAGE` (R169). -/
def execFDamage (f : WireFrame) (s : State) : StepOutcome := wireFrame .damage f s

/-- `F.LAUNCHER_DATA` (R170). -/
def execFLauncherData (f : WireFrame) (s : State) : StepOutcome := wireFrame .launcherData f s

/-- `F.BULLETS_REMAINING` (R171). -/
def execFBulletsRemaining (f : WireFrame) (s : State) : StepOutcome :=
  wireFrame .bulletsRemaining f s

/-- `F.RFID` (R172). -/
def execFRfid (f : WireFrame) (s : State) : StepOutcome := wireFrame .rfid f s

/-- `F.CLIENT_MAPS` (R173). -/
def execFClientMaps (f : WireFrame) (s : State) : StepOutcome := wireFrame .clientMaps f s

/-- `F.KEYBOARD_MOUSE` (R174). -/
def execFKeyboardMouse (f : WireFrame) (s : State) : StepOutcome := wireFrame .keyboardMouse f s

/-- `F.OTHER[j]` (R175); its destination is `T[j]`, which `Cfg.WF` makes the place of its row. -/
def execFOther (j : Nat) (f : WireFrame) (s : State) : StepOutcome := wireFrame (.other j) f s

/-- `F.UNKNOWN` (R148, R176): the call ends with `ERR_UNKNOWN_CMD(id, cur)`; what it committed and
counted stays, and nothing of the offending frame is checked or counted. -/
def execFUnknown (id : Half) (s : State) : StepOutcome := .next (s.finish (.errUnknownCmd id s.cur))

/-- The meaning of a frame of the variant with destination `k`. -/
def runWire (k : Field) (f : WireFrame) (s : State) : StepOutcome :=
  match k with
  | .gameStatus => execFGameStatus f s
  | .gameResult => execFGameResult f s
  | .robotHp => execFRobotHp f s
  | .dartStatus => execFDartStatus f s
  | .fieldEvents => execFFieldEvents f s
  | .robotStatus => execFRobotStatus f s
  | .powerHeat => execFPowerHeat f s
  | .position => execFPosition f s
  | .buffs => execFBuffs f s
  | .damage => execFDamage f s
  | .launcherData => execFLauncherData f s
  | .bulletsRemaining => execFBulletsRemaining f s
  | .rfid => execFRfid f s
  | .clientMaps => execFClientMaps f s
  | .keyboardMouse => execFKeyboardMouse f s
  | .other j => execFOther j f s

end Sys2Proof.Machine
end

