-- ==== Sys2Proof/Machine/Demux.lean ====
section
/-! DEFINITION. DMX: the scan of a receive buffer and the operation `DECODE` (41_demux_decode.md R140 to
R154). -/

namespace Sys2Proof.Machine

/-- What one turn of the loop of R140 finds at the cursor: nothing to run (then the state after the
turn), or a wire instruction. -/
inductive Turn where
  | moved (s : State)
  | frame (k : Field) (f : WireFrame)
  | unknown (dataLength : Half) (seq : Byte) (id : Half)

/-- The part of one turn of the loop of R140 that runs no wire instruction, with `rx` from the cursor
on in `rest`: a skipped byte and a rejected header cost one byte, an exhausted or cut-off buffer ends
the call, a cut-off frame is counted first. -/
def scanTurn (rest : Bytes) (s : State) : Turn :=
  match decodeWire s.cfg rest with
  | .exhausted => .moved (s.finish .ok)
  | .skip => .moved (s.advance 1)
  | .headerCut => .moved (s.finish .ok)
  | .headerBad => .moved (s.advance 1)
  | .idCut => .moved (s.finish .ok)
  | .unknown dl seq id => .unknown dl seq id
  | .frameCut => .moved (s.countDrop.finish .ok)
  | .frame row f => .frame row.field f

/-- At most `n` turns of the loop of R140. R154 bounds the turns by the length of the buffer. -/
def scan : Nat → State → StepOutcome
  | 0, s => .next s
  | n + 1, s =>
    match s.activity with
    | .idle => .next s
    | .framing _ => .next s
    | .scanning rx cur =>
      match scanTurn (rx.drop cur) s with
      | .moved s' => scan n s'
      | .unknown _ _ id => execFUnknown id s
      | .frame k f =>
        match runWire k f s with
        | .next s' => scan n s'
        | .fault r => .fault r
        | .refused r => .refused r

/-- `DECODE(rx, len)` (R140): `STATUS <- RUNNING`, `cur <- 0`, then the loop, as one operation
(20_memory.md R59). A buffer longer than `RXBUF_MAX` is refused (R50). -/
def execDecode (rx : Bytes) (s : State) : StepOutcome :=
  if s.cfg.rxbufMax < rx.length then .refused (.rxTooLong rx.length)
  else scan (rx.length + 1) { s.setStatus .running with activity := .scanning rx 0 }

end Sys2Proof.Machine
end

