-- ==== Sys2Proof/Machine/Framer.lean ====
section
/-! DEFINITION. PF: the outbound frames (30_encoding.md R91) and the operation `PACK`
(43_packet_framer.md R220 to R235). -/

namespace Sys2Proof.Machine

/-- The batch capacity for `n` queued graphics (R223): the least `c` of 1, 2, 5, 7 with
`c >= min(n, 7)`. -/
def batchCap (n : Nat) : Nat := ([1, 2, 5, 7].find? fun c => decide (min n 7 ≤ c)).getD 7

/-- The slots of a batch frame of capacity `cap` over the queued graphics `es` (R224, R225): the oldest
`min(n, cap)` elements, then inert slots. -/
def batchBody (c : Cfg) (cap : Nat) (es : List Bytes) : Bytes :=
  (es.take cap ++ List.replicate (cap - es.length) c.inertSlot).flatten

namespace State

/-- Take the elements an outbound frame of a queue carries out of that queue: `m` elements, where `body`
is what frames them. In the frames PF issues it always is (R222, R224, R227); of another body the queue
holds nothing to take (log entry 8). -/
def dequeueFramed (q : Queue) (m : Nat) (framed body : Bytes) (s : State) : State :=
  if s.queue q ≠ [] ∧ body = framed then s.setQueue q ((s.queue q).drop m) else s

/-- Frame construction and output (R229 to R235). -/
def emit (k : UiKind) (sender : Half) (body : Bytes) (s : State) : State :=
  let frame := s.cfg.uiFrame (s.cfg.subId k) sender body
  (s.txWrite frame).finish (.frame frame)

end State

/-- A frame of one element, taken from the queue `q` (R222, R227). -/
def frameOne (k : UiKind) (q : Queue) (sender : Half) (body : Bytes) (s : State) : StepOutcome :=
  .next ((s.dequeueFramed q 1 ((s.queue q).headD []) body).emit k sender body)

/-- A batch frame of capacity `cap` (R223 to R226). -/
def frameBatch (k : UiKind) (cap : Nat) (sender : Half) (body : Bytes) (s : State) : StepOutcome :=
  .next ((s.dequeueFramed .graphics cap (batchBody s.cfg cap s.gq) body).emit k sender body)

/-- `UI.DELETE` (R222). -/
def execUiDelete (sender : Half) (body : Bytes) (s : State) : StepOutcome :=
  frameOne .delete .deletes sender body s

/-- `UI.DRAW1` (R223). -/
def execUiDraw1 (sender : Half) (body : Bytes) (s : State) : StepOutcome :=
  frameBatch .draw1 1 sender body s

/-- `UI.DRAW2` (R223). -/
def execUiDraw2 (sender : Half) (body : Bytes) (s : State) : StepOutcome :=
  frameBatch .draw2 2 sender body s

/-- `UI.DRAW5` (R223). -/
def execUiDraw5 (sender : Half) (body : Bytes) (s : State) : StepOutcome :=
  frameBatch .draw5 5 sender body s

/-- `UI.DRAW7` (R223). -/
def execUiDraw7 (sender : Half) (body : Bytes) (s : State) : StepOutcome :=
  frameBatch .draw7 7 sender body s

/-- `UI.STRING` (R227). -/
def execUiString (sender : Half) (body : Bytes) (s : State) : StepOutcome :=
  frameOne .string .labels sender body s

/-- The meaning of an outbound frame. -/
def runUi (k : UiKind) (sender : Half) (body : Bytes) (s : State) : StepOutcome :=
  match k with
  | .delete => execUiDelete sender body s
  | .draw1 => execUiDraw1 sender body s
  | .draw2 => execUiDraw2 sender body s
  | .draw5 => execUiDraw5 sender body s
  | .draw7 => execUiDraw7 sender body s
  | .string => execUiString sender body s

/-- The sub-command of a batch capacity (R91, R223). -/
def drawKind (cap : Nat) : UiKind :=
  if cap = 1 then .draw1 else if cap = 2 then .draw2 else if cap = 5 then .draw5 else .draw7

/-- The selection of R221, evaluated on the state at entry: the first of delete, graphics, label that
is pending, with the body its frame has (R222, R224, R225, R227). -/
def select (s : State) : Option (UiKind × Bytes) :=
  match s.dq, s.gq, s.lq with
  | d :: _, _, _ => some (.delete, d)
  | [], g :: gs, _ =>
    let cap := batchCap (g :: gs).length
    some (drawKind cap, batchBody s.cfg cap (g :: gs))
  | [], [], l :: _ => some (.string, l)
  | [], [], [] => none

/-- `PACK(sender_id)` (R220): one frame of what is selected, or `NOTHING_PENDING` (R228). -/
def execPack (sender : Half) (s : State) : StepOutcome :=
  match select s with
  | some (k, body) => runUi k sender body s
  | none => .next (s.finish .nothingPending)

/-- `DRAIN sender=s` (30_encoding.md R99): `PACK` until it returns `NOTHING_PENDING`, at most `n` times.
Answers the frames, oldest first, and the state. -/
def drain (sender : Half) : Nat → State → List Bytes × State
  | 0, s => ([], s)
  | n + 1, s =>
    match execPack sender s with
    | .next s' =>
      match s'.result with
      | .frame b => let r := drain sender n s'; (b :: r.1, r.2)
      | _ => ([], s')
    | .fault _ => ([], s)
    | .refused _ => ([], s)

end Sys2Proof.Machine
end

