-- ==== Sys2Proof/Machine/Staging.lean ====
section
/-! DEFINITION. The port operations of SQ (42_staging_queue.md R191 to R197). -/

namespace Sys2Proof.Machine

/-- `PUSH_GRAPHIC(e)` (R191). -/
def execPushGraphic (e : Bytes) (s : State) : StepOutcome := push .graphics e s

/-- `PUSH_LABEL(e)` (R192). -/
def execPushLabel (e : Bytes) (s : State) : StepOutcome := push .labels e s

/-- `PUSH_DELETE(e)` (R193). -/
def execPushDelete (e : Bytes) (s : State) : StepOutcome := push .deletes e s

/-- `POP_DELETE` (R194). -/
def execPopDelete (s : State) : StepOutcome := pop .deletes s

/-- `POP_GRAPHIC` (R195). -/
def execPopGraphic (s : State) : StepOutcome := pop .graphics s

/-- `POP_LABEL` (R196). -/
def execPopLabel (s : State) : StepOutcome := pop .labels s

/-- `GRAPHIC_COUNT` (R197). -/
def execGraphicCount (s : State) : StepOutcome := .next (s.answer (.count s.gq.length))

end Sys2Proof.Machine
end

