-- ==== Sys2Proof/Machine/Status.lean ====
section
/-! DEFINITION. Port operations on status and reset, and the read ports: `RESET`
(70_reset_and_hazards.md R350), `SET_OFFLINE`, `RESTART` (60_exceptions.md R325, R326), `READ_FIELD`,
`READ_STATUS`, `READ_DROPCNT` (10_state.md R32), and the reserved code (30_encoding.md R96). -/

namespace Sys2Proof.Machine

/-- `RESET` (R350): every state item of the block takes its value of 10_state.md R34. The agents around
the block, the parameters and the transactions still to come are not the block's. -/
def execReset (s : State) : StepOutcome :=
  .next { s with
    T := s.cfg.tReset
    status := .offline
    dropcnt := 0
    gq := []
    lq := []
    dq := []
    txb := []
    activity := .idle
    result := .nothing }

/-- `SET_OFFLINE` (R325). -/
def execSetOffline (s : State) : StepOutcome := .next ((s.setStatus .offline).answer .nothing)

/-- `RESTART` (R326): on the block it does what `SET_OFFLINE` does. -/
def execRestart (s : State) : StepOutcome := .next ((s.setStatus .offline).answer .nothing)

/-- `READ_FIELD(k)` (R32): a copy of the whole register. -/
def execReadField (k : Half) (s : State) : StepOutcome :=
  match s.T[k.toNat]? with
  | some b => .next (s.answer (.bytes b))
  | none => .fault (.noSuchField k)

/-- `READ_STATUS` (R32). -/
def execReadStatus (s : State) : StepOutcome := .next (s.answer (.status s.status.bit))

/-- `READ_DROPCNT` (R32). -/
def execReadDropcnt (s : State) : StepOutcome := .next (s.answer (.dropcnt s.dropcnt))

/-- Port code 0xF (R96): "the model refuses it". -/
def execPortReserved (_ : State) : StepOutcome := .refused .reservedPortCode

end Sys2Proof.Machine
end

