-- ==== Sys2Proof/Machine/Dispatch.lean ====
section
/-! DEFINITION. One arm for each instruction. -/

namespace Sys2Proof.Machine

def exec (i : Instr) (s : State) : Host.Outcome State Fault Refusal :=
  match i with
  | .reset => Sys2Proof.Machine.execReset s
  | .decode rx => Sys2Proof.Machine.execDecode rx s
  | .pushGraphic e => Sys2Proof.Machine.execPushGraphic e s
  | .pushLabel e => Sys2Proof.Machine.execPushLabel e s
  | .pushDelete e => Sys2Proof.Machine.execPushDelete e s
  | .popDelete => Sys2Proof.Machine.execPopDelete s
  | .popGraphic => Sys2Proof.Machine.execPopGraphic s
  | .popLabel => Sys2Proof.Machine.execPopLabel s
  | .graphicCount => Sys2Proof.Machine.execGraphicCount s
  | .pack sender => Sys2Proof.Machine.execPack sender s
  | .setOffline => Sys2Proof.Machine.execSetOffline s
  | .restart => Sys2Proof.Machine.execRestart s
  | .readField k => Sys2Proof.Machine.execReadField k s
  | .readStatus => Sys2Proof.Machine.execReadStatus s
  | .readDropcnt => Sys2Proof.Machine.execReadDropcnt s
  | .portReserved => Sys2Proof.Machine.execPortReserved s
  | .fGameStatus f => Sys2Proof.Machine.execFGameStatus f s
  | .fGameResult f => Sys2Proof.Machine.execFGameResult f s
  | .fRobotHp f => Sys2Proof.Machine.execFRobotHp f s
  | .fDartStatus f => Sys2Proof.Machine.execFDartStatus f s
  | .fFieldEvents f => Sys2Proof.Machine.execFFieldEvents f s
  | .fRobotStatus f => Sys2Proof.Machine.execFRobotStatus f s
  | .fPowerHeat f => Sys2Proof.Machine.execFPowerHeat f s
  | .fPosition f => Sys2Proof.Machine.execFPosition f s
  | .fBuffs f => Sys2Proof.Machine.execFBuffs f s
  | .fDamage f => Sys2Proof.Machine.execFDamage f s
  | .fLauncherData f => Sys2Proof.Machine.execFLauncherData f s
  | .fBulletsRemaining f => Sys2Proof.Machine.execFBulletsRemaining f s
  | .fRfid f => Sys2Proof.Machine.execFRfid f s
  | .fClientMaps f => Sys2Proof.Machine.execFClientMaps f s
  | .fKeyboardMouse f => Sys2Proof.Machine.execFKeyboardMouse f s
  | .fOther j f => Sys2Proof.Machine.execFOther j f s
  | .fUnknown _ _ id => Sys2Proof.Machine.execFUnknown id s
  | .uiDelete sender body => Sys2Proof.Machine.execUiDelete sender body s
  | .uiDraw1 sender body => Sys2Proof.Machine.execUiDraw1 sender body s
  | .uiDraw2 sender body => Sys2Proof.Machine.execUiDraw2 sender body s
  | .uiDraw5 sender body => Sys2Proof.Machine.execUiDraw5 sender body s
  | .uiDraw7 sender body => Sys2Proof.Machine.execUiDraw7 sender body s
  | .uiString sender body => Sys2Proof.Machine.execUiString sender body s

end Sys2Proof.Machine
end

