-- ==== Sys2Proof/Machine/Environment.lean ====
section
/-! DEFINITION. The agents around the block (44_environment.md): RefreshScheduler, Transmitter, mailbox,
receive driver and the consumer task's decode. They reach the block only through its port operations. -/

namespace Sys2Proof.Machine

/-- The serialised element of a shape, `n` bytes of free value number `draw` (91_not_in_source.md N9,
N14; log entry 16). -/
def elementOf (draw : Nat) (screen : Option Screen) (sh : Shape) (op : GraphicOp) (n : Nat) : Bytes :=
  (List.range n).map (Config.elementByte draw screen sh op)

/-- `STAGE(kind, element)` (30_encoding.md R99): the push, a `QUEUE_FULL` ignored, the staged operation
then dropped (R262). -/
def stage (op : GraphicOp) (q : Queue) (sh : Shape) (s : State) : State :=
  { s.enqueue q (elementOf s.fresh s.env.screen sh op (q.elementBytes s.cfg)) with
    fresh := s.fresh + 1 }

/-- Stage several elements in order. -/
def stageAll (op : GraphicOp) (es : List (Queue × Shape)) (s : State) : State :=
  es.foldl (fun s e => stage op e.1 e.2 s) s

/-- A highlight rectangle where the mode value is recognised, nothing else (R267). -/
def highlight (sh : Highlight → Shape) (h : Option Highlight) : List (Queue × Shape) :=
  h.toList.map fun x => (.graphics, sh x)

/-- What the body of a phase stages, in order (R263 to R266); no phase but 0 to 4 has a body (R268). -/
def phaseBody (phase : BitVec 3) (m : ModeSnapshot) : List (Queue × Shape) :=
  match phase.toNat with
  | 0 => (.graphics, .headingLine) :: highlight .chassisMode m.chassis
  | 1 => [(.graphics, .capacitorArc m.capacitorOnline)]
  | 2 => highlight .turretMode m.turret
  | 3 => highlight .safetyMode m.safety ++ highlight .fireRateMode m.fireRate
  | 4 => [(.graphics, .inputMethod m.mouseKeyboard)]
  | _ => []

/-- The phase after a fast tick (R262): `(phase + 1) mod 5`, and 0 from a value out of range (R268). -/
def phaseNext (phase : BitVec 3) : BitVec 3 :=
  if phase.toNat < 5 then BitVec.ofNat 3 ((phase.toNat + 1) % 5) else 0

/-- `FAST_TICK` (R262, R269): the body of the phase in the mode in force, the next phase, and REWRITE
from then on. -/
def fastTick (m : ModeSnapshot) (s : State) : State :=
  let staged := stageAll s.env.graphicOp (phaseBody s.env.phase m) s
  { staged with env :=
    { staged.env with phase := phaseNext s.env.phase, graphicOp := .rewrite } }

/-- What a slow tick stages, in order (R270): four legends, the divider line, two titles. -/
def slowBundle : List (Queue × Shape) :=
  [(.labels, .legend 1), (.labels, .legend 2), (.labels, .legend 3), (.labels, .legend 4),
   (.graphics, .dividerLine), (.labels, .title 1), (.labels, .title 2)]

/-- `SLOW_TICK` (R270). -/
def slowTick (s : State) : State :=
  stageAll .add slowBundle { s with env := { s.env with graphicOp := .add, phase := 1 } }

/-- `SEND(frame)` (R277): on success the previous in-flight buffer is released and the frame takes its
place; on failure nothing changes hands. The notification is raised in both cases, here; whether a
completed transfer raises it again is `transferComplete`'s to say (log entry 25). -/
def send (frame : Bytes) (accepted : Bool) (s : State) : State :=
  if accepted then
    { s with
      env := { s.env with
        released := s.env.released ++ s.env.inflight.toList
        inflight := some frame
        sendComplete := s.env.sendComplete + 1 }
      result := .ok }
  else
    { s with
      env := { s.env with sendComplete := s.env.sendComplete + 1 }
      result := .sendError }

/-- A transfer completes. The frame stays in flight (R276: until a new one is accepted). R277 leaves open
whether "send complete" is raised here too: DESIGN CHOICE, both are admitted, `notified` says which
(93_implementation_defined.md U17; log entry 25). -/
def transferComplete (notified : Bool) (s : State) : State :=
  { s with env := { s.env with sendComplete := s.env.sendComplete + notified.toNat } }

/-- `POST(e)` (R285): whatever the slot held is lost (R287). -/
def post (e : Event) (s : State) : State := { s with env := { s.env with mailbox := some e } }

/-- `TAKE` (R285): consumes and clears, or waits. -/
def take (s : State) : State :=
  match s.env.mailbox with
  | some e => { s with env := { s.env with mailbox := none }, result := .event e }
  | none => { s with result := .waiting }

/-- The screen geometry is supplied (R298; 70_reset_and_hazards.md R351). -/
def supplyScreen (g : Screen) (s : State) : State := { s with env := { s.env with screen := some g } }

/-- `start_receive() -> Result<(), Err>` (R296): on `Ok` a receive is in progress. R296 gives the result
and no more; that a receive already in progress goes on, whatever the answer, and that `Err` starts
none, is the model's (DESIGN CHOICE, log entry 27). -/
def startReceive (accepted : Bool) (s : State) : State :=
  { s with
    env := { s.env with receiving := s.env.receiving || accepted }
    result := if accepted then .ok else .receiveError }

/-- A completion callback: the driver has written the receive buffer, the receive is over, and the
callback's event is posted (R286, R296; 20_memory.md R50, R60). -/
def received (rx : Bytes) (cb : RxCallback) (s : State) : State :=
  post cb.event { s with env := { s.env with rx := rx, receiving := false } }

/-- The driver's part of a restart: the receive in progress, if there is one, ends (R290). RX_ABORT is not
posted here but by the driver's callback `abortComplete`, a `received` of its own. The spec is silent on
whether that callback comes when no receive was in progress: DESIGN CHOICE, both are admitted, for
nothing constrains which callbacks the driver presents (log entry 26). -/
def abortReceive (s : State) : State := { s with env := { s.env with receiving := false } }

/-- One operation of an agent around the block. -/
def agent (a : AgentOp) (s : State) : StepOutcome :=
  match a with
  | .fastTick m => .next ((fastTick m s).answer .nothing)
  | .slowTick => .next ((slowTick s).answer .nothing)
  | .send frame accepted => .next (send frame accepted s)
  | .transferComplete notified => .next ((transferComplete notified s).answer .nothing)
  | .post e => .next ((post e s).answer .nothing)
  | .take => .next (take s)
  | .supplyScreen g => .next ((supplyScreen g s).answer .nothing)
  | .startReceive accepted => .next (startReceive accepted s)
  | .received rx cb => .next ((received rx cb s).answer .nothing)
  | .abortReceive => .next ((abortReceive s).answer .nothing)
  | .decodeReceived => execDecode s.env.rx s

end Sys2Proof.Machine
end

