-- ==== Sys2Proof/Machine/Fetch.lean ====
section
/-! DEFINITION. What a step has to do next: run an instruction, an agent's operation, or neither. Between
operations the block takes the next transaction; inside a scan it reads the wire instruction at the
cursor; inside a `PACK` it selects the frame to issue. -/

namespace Sys2Proof.Machine

/-- What a step finds to do, with the state it does it on. -/
inductive Fetched where
  /-- An instruction to run. -/
  | run (i : Instr) (s : State)
  /-- An agent's operation to run. -/
  | agent (a : AgentOp) (s : State)
  /-- Nothing to run: the state after the step. -/
  | moved (s : State)
  /-- The step is refused. -/
  | refuse (r : Refusal)

/-- Between operations (20_memory.md R59): the oldest transaction, or, with none, a wait
(70_reset_and_hazards.md R350: "the block waits for port operations"). -/
def fetchInput (s : State) : Fetched :=
  match s.inputs with
  | [] => .moved s
  | .command op operand :: rest =>
    match decode s.cfg (.port op operand) with
    | .ok i => .run i { s with inputs := rest }
    | .error e => .refuse (.undecodable e)
  | .overlapping _ _ _ _ :: _ => .refuse .overlappingOperations
  | .agent a :: rest => .agent a { s with inputs := rest }

/-- Inside a scan (41_demux_decode.md R140): what stands at the cursor. -/
def fetchWire (rest : Bytes) (s : State) : Fetched :=
  match scanTurn rest s with
  | .moved s' => .moved s'
  | .frame k f => .run (Instr.ofField k f) s
  | .unknown dl seq id => .run (.fUnknown dl seq id) s

/-- Inside a `PACK` (43_packet_framer.md R221): the frame PF issues, or `NOTHING_PENDING` (R228). -/
def fetchUi (sender : Half) (s : State) : Fetched :=
  match select s with
  | some (k, body) => .run (Instr.ofUi k sender body) s
  | none => .moved (s.finish .nothingPending)

/-- What the next step does, by what the block is inside of. -/
def fetchHere (s : State) : Fetched :=
  match s.activity with
  | .idle => fetchInput s
  | .scanning rx cur => fetchWire (rx.drop cur) s
  | .framing sender => fetchUi sender s

/-- What the next step does. An ill-formed configuration is refused (93_implementation_defined.md U12). -/
def fetch (s : State) : Fetched := if s.cfg.wf then fetchHere s else .refuse .illFormedCfg

/-- The state in which the next step fetches the code `code` (log entries 5, 15): a port transaction
stands first among the inputs, an inbound frame at the cursor of a scan, and the body of an outbound
frame in its queue, the queues of higher priority empty, inside a `PACK`. -/
def placeCode (code : Code) (s : State) : State :=
  match code with
  | .port op operand => { s with activity := .idle, inputs := .command op operand :: s.inputs }
  | .inbound frame => { s with activity := .scanning frame 0 }
  | .outbound frame =>
    match s.cfg.uiKindOf (rd16 frame 7) with
    | none => s
    | some k =>
      let sender := rd16 frame 9
      let body := slice frame 13 (frame.length - 15)
      let slots := fun n => List.replicate n (body.take s.cfg.graphicBytes)
      match k with
      | .delete => { s with activity := .framing sender, dq := [body] }
      | .draw1 => { s with activity := .framing sender, dq := [], gq := slots 1 }
      | .draw2 => { s with activity := .framing sender, dq := [], gq := slots 2 }
      | .draw5 => { s with activity := .framing sender, dq := [], gq := slots 5 }
      | .draw7 => { s with activity := .framing sender, dq := [], gq := slots 7 }
      | .string => { s with activity := .framing sender, dq := [], gq := [], lq := [body] }

end Sys2Proof.Machine
end

