-- ==== Sys2Proof/Machine/Step.lean ====
section
/-! DEFINITION. One step: fetch, then run what was fetched. -/

namespace Sys2Proof.Machine

/-- Run what was fetched. -/
def runFetched (f : Fetched) : Host.Outcome State Fault Refusal :=
  match f with
  | .run i s => exec i s
  | .agent a s => agent a s
  | .moved s => .next s
  | .refuse r => .refused r

/-- One step of the machine. A port operation is one step (20_memory.md R59). -/
def step (s : State) : Host.Outcome State Fault Refusal := runFetched (fetch s)

/-- The state with the instruction of a table row's bits where the next step fetches (log entry 5). -/
def State.withFetchWord (s : State) (nbits w : Nat) : State :=
  placeCode (tableCode s.cfg nbits w) s

end Sys2Proof.Machine
end

