-- ==== Sys2Proof/Machine/Ring.lean ====
section
/-! DEFINITION. The ring of 10_state.md R26, the hardware realisation of one queue: slots, head index,
count. It is no part of State (R26: head and free slots are not observable); a statement says that it
behaves as the list of R25 does. -/

namespace Sys2Proof.Machine

/-- The ring of R26; its capacity is the number of slots. -/
structure Ring where
  slots : List Bytes
  head : Nat
  count : Nat
deriving DecidableEq, Repr

namespace Ring

/-- Head in `0 .. CAP-1`, count in `0 .. CAP` (R26). -/
abbrev WF (r : Ring) : Prop := r.head < r.slots.length ∧ r.count ≤ r.slots.length

/-- The list of R25 that a ring stands for: the occupied slots from the head on. -/
def toList (r : Ring) : List Bytes :=
  (List.range r.count).map fun i => r.slots.getD ((r.head + i) % r.slots.length) []

/-- Push (R26): write slot `(head + count) mod CAP`, add 1 to count; a full ring takes nothing. -/
def push (e : Bytes) (r : Ring) : Option Ring :=
  if r.count = r.slots.length then none
  else some { r with
    slots := r.slots.set ((r.head + r.count) % r.slots.length) e
    count := r.count + 1 }

/-- Pop (R26): read slot `head`, move the head, subtract 1 from count. -/
def pop (r : Ring) : Option (Bytes × Ring) :=
  if r.count = 0 then none
  else some (r.slots.getD r.head [],
    { r with head := (r.head + 1) % r.slots.length, count := r.count - 1 })

end Ring

end Sys2Proof.Machine
end

