-- ==== Sys2Proof/Safety.lean ====
section
/-! DEFINITION. What the statements call a good state: the invariant of the machine and the condition of
standing between two port operations. -/

namespace Sys2Proof.Machine

/-- The cursor lies in its buffer and the buffer is no longer than `DECODE` accepts (41_demux_decode.md
R154, 20_memory.md R50). -/
def Activity.inBounds (c : Cfg) : Activity → Prop
  | .idle => True
  | .scanning rx cur => cur ≤ rx.length ∧ rx.length ≤ c.rxbufMax
  | .framing _ => True

/-- A queue is within its capacity and its elements have its element size (10_state.md R25, R27). -/
def State.queueWF (s : State) (q : Queue) : Prop :=
  (s.queue q).length ≤ q.cap s.cfg ∧ ∀ e ∈ s.queue q, e.length = q.elementBytes s.cfg

/-- The invariant of the machine: the configuration meets 00_scope.md R5, every register of the bank has
its width (10_state.md R20), the counter fits its width (R23), the queues are within their bounds
(R25, R27), the transmit buffer is within `TXB_MAX` (R30), a scan is within its buffer (R24). -/
structure State.Inv (s : State) : Prop where
  cfg : s.cfg.WF
  bank : s.T.map List.length = s.cfg.cmdTable.map CmdRow.size
  dropcnt : s.dropcnt < 2 ^ s.cfg.dropcntW
  queues : ∀ q, s.queueWF q
  txb : s.txb.length ≤ s.cfg.txbMax
  scan : s.activity.inBounds s.cfg

/-- The block stands between two port operations: no scan is on, so the cursor is not live (10_state.md
R24). -/
abbrev State.Idle (s : State) : Prop := s.activity = .idle

end Sys2Proof.Machine
end

