-- ==== Sys2Proof/Certificates/Slice0/Obligations.lean ====
section
/-! DEFINITION. The statements for the provers, in the order of OBLIGATIONS.json, with the few terms they
are written in. -/

namespace Sys2Proof.Claims

open Sys2Proof Sys2Proof.Machine

/-- The activity after the scan cursor, where there is one, has moved by `n` (R24). -/
def moved (n : Nat) : Activity → Activity
  | .idle => .idle
  | .scanning rx cur => .scanning rx (cur + n)
  | .framing sender => .framing sender

/-- The instruction built by `i` has the effect of the template of 41_demux_decode.md section 3 with
destination `k`: a right trailer commits the payload, a wrong one is counted, the cursor passes the
span. -/
def CommitsOrCounts (i : WireFrame → Instr) (k : Field) : Prop :=
  ∀ (s : State) (f : WireFrame) (row : CmdRow) (reg : Nat),
    s.cfg.rowOf k = some row → s.cfg.regOf k = some reg → f.payload.length = row.size →
    exec (i f) s = .next (
      if s.cfg.crc16 (s.cfg.framePre row.id f.dataLength f.seq f.payload) = f.trailer then
        { s with T := s.T.set reg f.payload, activity := moved (9 + row.size) s.activity }
      else
        { s with dropcnt := (s.dropcnt + 1) % 2 ^ s.cfg.dropcntW
                 activity := moved (9 + row.size) s.activity })

/-- The state with `DECODE` finished with the result `r`. -/
def ended (r : Result) (s : State) : State := { s with result := r, activity := .idle }

/-- A frame in a buffer, with the bytes before it that are no start byte. -/
structure Item where
  noise : Bytes
  row : CmdRow
  frame : WireFrame

/-- The bytes before the frame are not `SOF`, and the frame is one of a variant of the table. -/
def Item.Fits (c : Cfg) (it : Item) : Prop :=
  (∀ b ∈ it.noise, b ≠ c.sof) ∧ it.row ∈ c.cmdTable ∧ it.frame.payload.length = it.row.size

/-- The bytes of some items, one after the other. -/
def render (c : Cfg) (items : List Item) : Bytes :=
  items.flatMap fun it => it.noise ++ c.frameBytes it.row.id it.frame

/-- What a decoder does with the frame of an item: commit or count (R151, R152). -/
def applyItem (s : State) (it : Item) : State :=
  if s.cfg.frmChk (s.cfg.frameBytes it.row.id it.frame) then
    match s.cfg.regOf it.row.field with
    | some reg => { s with T := s.T.set reg it.frame.payload }
    | none => s
  else { s with dropcnt := (s.dropcnt + 1) % 2 ^ s.cfg.dropcntW }

/-- A result with the index it carries, if any, moved by `n`. -/
def shifted (n : Nat) : Result → Result
  | .errUnknownCmd id pos => .errUnknownCmd id (pos + n)
  | r => r

/-- The table of 43_packet_framer.md R223: for `n` queued graphics, the batch capacity and the
sub-command id. -/
def BatchRow (c : Cfg) (n cap : Nat) (sub : Half) : Prop :=
  (n = 1 ∧ cap = 1 ∧ sub = c.subDraw1) ∨ (n = 2 ∧ cap = 2 ∧ sub = c.subDraw2) ∨
  (3 ≤ n ∧ n ≤ 5 ∧ cap = 5 ∧ sub = c.subDraw5) ∨ (6 ≤ n ∧ cap = 7 ∧ sub = c.subDraw7)

/-- The body of a batch frame (R224, R225): at most `cap` elements, oldest first, then inert slots. -/
def slots (c : Cfg) (cap : Nat) (es : List Bytes) : Bytes :=
  (es.take cap).flatten ++ (List.replicate (cap - es.length) c.inertSlot).flatten

/-- The state after PF has issued a frame. -/
def issued (fr : Bytes) (s : State) : State :=
  { s with txb := fr, result := .frame fr, activity := .idle }

/-- Seven at a time, at most `n` groups. -/
def groupsOf7 : Nat → List Bytes → List (List Bytes)
  | 0, _ => []
  | n + 1, es => if es = [] then [] else es.take 7 :: groupsOf7 n (es.drop 7)

/-- The capacity of R223 as a function of the number of graphics. -/
def capFor (n : Nat) : Nat := if n ≤ 1 then 1 else if n ≤ 2 then 2 else if n ≤ 5 then 5 else 7

/-- The sub-command id of a capacity (R91). -/
def subFor (c : Cfg) (cap : Nat) : Half :=
  if cap = 1 then c.subDraw1 else if cap = 2 then c.subDraw2
  else if cap = 5 then c.subDraw5 else c.subDraw7

/-- The frames that emptying SQ takes, in order (R238): every delete, the graphics in groups of 7,
every label. -/
def drainFrames (s : State) (sender : Half) : List Bytes :=
  s.dq.map (s.cfg.uiFrame s.cfg.subDelete sender) ++
  (groupsOf7 s.gq.length s.gq).map (fun g =>
    s.cfg.uiFrame (subFor s.cfg (capFor g.length)) sender (slots s.cfg (capFor g.length) g)) ++
  s.lq.map (s.cfg.uiFrame s.cfg.subString sender)

/-- The instruction of a push to a queue. -/
def pushOf : Queue → Bytes → Instr
  | .graphics, e => .pushGraphic e
  | .labels, e => .pushLabel e
  | .deletes, e => .pushDelete e

/-- The instruction of a pop from a queue. -/
def popOf : Queue → Instr
  | .graphics => .popGraphic
  | .labels => .popLabel
  | .deletes => .popDelete

/-- One queue operation: a push or a pop, on any of the three queues. -/
inductive QueueOp where
  | push (q : Queue) (e : Bytes)
  | pop (q : Queue)

/-- The queue an operation is on, and its instruction. -/
def QueueOp.queue : QueueOp → Queue
  | .push q _ => q
  | .pop q => q

def QueueOp.instr : QueueOp → Instr
  | .push q e => pushOf q e
  | .pop q => popOf q

/-- The elements that pushes of `q` stored (they returned `OK`) and pops of `q` returned, in order, over
a sequence of queue operations, and the state after it. An operation that is refused does not count. -/
def history (q : Queue) : List QueueOp → State → List Bytes × List Bytes × State
  | [], s => ([], [], s)
  | op :: ops, s =>
    match exec op.instr s with
    | .next t =>
      let r := history q ops t
      match op, t.result with
      | .push q' e, .ok => if q' = q then (e :: r.1, r.2) else r
      | .pop q', .element e => if q' = q then (r.1, e :: r.2.1, r.2.2) else r
      | _, _ => r
    | .fault _ => history q ops s
    | .refused _ => history q ops s

/-- The agents' operations one after the other. -/
def agents : List AgentOp → State → State
  | [], s => s
  | a :: as, s =>
    match agent a s with
    | .next t => agents as t
    | .fault _ => s
    | .refused _ => s

/-- The shapes a phase's body stages (44_environment.md R263 to R266). -/
def shapesOf (phase : Nat) (m : ModeSnapshot) : List Shape :=
  if phase = 0 then .headingLine :: (m.chassis.map Shape.chassisMode).toList
  else if phase = 1 then [.capacitorArc m.capacitorOnline]
  else if phase = 2 then (m.turret.map Shape.turretMode).toList
  else if phase = 3 then
    (m.safety.map Shape.safetyMode).toList ++ (m.fireRate.map Shape.fireRateMode).toList
  else if phase = 4 then [.inputMethod m.mouseKeyboard]
  else []

/-- The element drawn as free value number `draw` for a shape. -/
def drawn (screen : Option Screen) (op : GraphicOp) (bytes draw : Nat) (sh : Shape) : Bytes :=
  (List.range bytes).map (Config.elementByte draw screen sh op)

end Sys2Proof.Claims

open Sys2Proof Sys2Proof.Machine Sys2Proof.Claims

/-! ## A step runs the decoded instruction -/

/-- Between operations, a step takes the oldest transaction: it runs the instruction the transaction
decodes to, or the agent's operation (the model's own interface, log entry 5). -/
def Obligations.StepRunsTheOldestTransaction : Prop :=
  ∀ (s : State) (rest : List Input), s.cfg.WF → s.activity = .idle →
    (∀ op operand i, s.inputs = .command op operand :: rest →
      decode s.cfg (.port op operand) = .ok i → step s = exec i { s with inputs := rest }) ∧
    (∀ a, s.inputs = .agent a :: rest → step s = agent a { s with inputs := rest })

/-- Inside a scan, a step runs the wire instruction at the cursor. -/
def Obligations.StepRunsTheWireInstructionAtTheCursor : Prop :=
  ∀ (s : State) (rx : Bytes) (cur : Nat), s.cfg.WF → s.activity = .scanning rx cur →
    (∀ row f, decodeWire s.cfg (rx.drop cur) = .frame row f →
      step s = exec (Instr.ofField row.field f) s) ∧
    (∀ dl seq id, decodeWire s.cfg (rx.drop cur) = .unknown dl seq id →
      step s = exec (.fUnknown dl seq id) s)

/-- Inside a `PACK`, a step runs the outbound frame of the first non-empty queue in the order delete,
graphic, label (R221), and ends with `NOTHING_PENDING` where all are empty. -/
def Obligations.StepRunsTheSelectedFrame : Prop :=
  ∀ (s : State) (sender : Half), s.cfg.WF → s.activity = .framing sender →
    (∀ d ds, s.dq = d :: ds → step s = exec (.uiDelete sender d) s) ∧
    (∀ k cap, s.dq = [] → s.gq ≠ [] → BatchRow s.cfg s.gq.length cap (s.cfg.subId k) →
      s.cfg.subIds.Nodup → step s = exec (Instr.ofUi k sender (slots s.cfg cap s.gq)) s) ∧
    (∀ l ls, s.dq = [] → s.gq = [] → s.lq = l :: ls → step s = exec (.uiString sender l) s) ∧
    (s.dq = [] → s.gq = [] → s.lq = [] → step s = .next (ended .nothingPending s))

/-! ## Reset, status and the read ports -/

/-- `RESET` (R350): the block's items take the values of R34, the power-on state has the same values,
and after reset the block waits for transactions. That `RESET` leaves the agents around the block as
they are, RefreshState, the mailbox and the in-flight buffer of R34's table among them, is the model's
choice (log entry 17), and so is that a step with no transaction to take changes nothing (log entry 5). -/
def Obligations.ResetRestoresEveryItem : Prop :=
  (∀ s : State, exec .reset s = .next
    { cfg := s.cfg, T := s.cfg.tReset, status := .offline, dropcnt := 0, gq := [], lq := [], dq := [],
      txb := [], activity := .idle, result := .nothing, inputs := s.inputs, env := s.env,
      fresh := s.fresh }) ∧
  (∀ c : Cfg, c.WF →
    exec .reset (State.resetWith c) = .next (State.resetWith c) ∧
    step (State.resetWith c) = .next (State.resetWith c))

/-- `SET_OFFLINE` and `RESTART` (R325, R326) set `STATUS` to `OFFLINE` and change nothing else (the
field `result` holds what the caller is handed: nothing); the next `DECODE` sets `RUNNING` again. -/
def Obligations.SetOfflineAndRestartChangeStatusOnly : Prop :=
  ∀ s : State,
    exec .setOffline s = .next { s with status := .offline, result := .nothing } ∧
    exec .restart s = .next { s with status := .offline, result := .nothing } ∧
    ∀ rx : Bytes, s.cfg.WF → rx.length ≤ s.cfg.rxbufMax →
      ∃ t, exec (.decode rx) { s with status := .offline, result := .nothing } = .next t ∧
        t.status = .running

/-- The read ports (R32) return a copy of what they read and have no side effect. -/
def Obligations.ReadPortsCopyState : Prop :=
  ∀ s : State,
    (∀ (k : Half) (b : Bytes), s.T[k.toNat]? = some b →
      exec (.readField k) s = .next { s with result := .bytes b }) ∧
    (s.Inv → ∀ (k : Nat) (row : CmdRow), s.cfg.cmdTable[k]? = some row →
      ∃ b, s.T[k]? = some b ∧ b.length = row.size) ∧
    (exec .readStatus s = .next { s with
      result := .status (match s.status with | .offline => 0 | .running => 1) }) ∧
    (exec .readDropcnt s = .next { s with result := .dropcnt s.dropcnt }) ∧
    (exec .graphicCount s = .next { s with result := .count s.gq.length })

/-- `READ_FIELD` of a register that does not exist stops (the selector's range is `0 .. NCMD-1`, R96; the
stop is the model's choice, log entry 13). -/
def Obligations.ReadFieldOutOfRangeFaults : Prop :=
  ∀ (s : State) (k : Half), s.Inv → s.cfg.ncmd ≤ k.toNat →
    exec (.readField k) s = .fault (.noSuchField k)

/-- `GRAPHIC_COUNT` (R197) returns the count of the graphic queue, a number in `0 .. CAP_G`. -/
def Obligations.GraphicCountIsWithinCapacity : Prop :=
  ∀ s : State, s.Inv →
    ∃ n, exec .graphicCount s = .next { s with result := .count n } ∧
      n = s.gq.length ∧ n ≤ s.cfg.capG

/-- The encodings of `STATUS` (R22) and of the results (R311). -/
def Obligations.StatusAndResultCodes : Prop :=
  Status.bit .offline = 0 ∧ Status.bit .running = 1 ∧
  Result.ok.code = some 0 ∧ (∀ id pos, (Result.errUnknownCmd id pos).code = some 1) ∧
  Result.queueFull.code = some 2 ∧ Result.nothingPending.code = some 3 ∧
  Result.noElement.code = some 4 ∧ Result.sendError.code = some 5 ∧
  (∀ e, (Result.element e).code = some 0) ∧ (∀ b, (Result.frame b).code = some 0)

/-! ## What the block does not run -/

/-- The reserved port code (R96), a buffer over `RXBUF_MAX` (R50), two operations at once (R59) and an
ill-formed configuration are refused. 93_implementation_defined.md U12 refuses duplicate ids or
destinations; that every other broken constraint of R5 is refused too is the model's choice (log entry
14; for the numbers of `F.OTHER[j]`, log entry 22). -/
def Obligations.OutsideTheContractIsRefused : Prop :=
  (∀ s : State, exec .portReserved s = .refused .reservedPortCode) ∧
  (∀ (s : State) (rx : Bytes), s.cfg.rxbufMax < rx.length →
    exec (.decode rx) s = .refused (.rxTooLong rx.length)) ∧
  (∀ (s : State) op₁ a₁ op₂ a₂ rest, s.cfg.WF → s.activity = .idle →
    s.inputs = .overlapping op₁ a₁ op₂ a₂ :: rest → step s = .refused .overlappingOperations) ∧
  (∀ s : State, ¬ s.cfg.WF → step s = .refused .illFormedCfg)

/-- A term of the instruction type that is no instruction of the configuration is refused: an element or
a payload of another size, a frame of a variant without a row. No decoder produces one. -/
def Obligations.IllFormedTermsAreRefused : Prop :=
  (∀ (s : State) (e : Bytes),
    (e.length ≠ s.cfg.graphicBytes → exec (.pushGraphic e) s = .refused (.operandSize e.length)) ∧
    (e.length ≠ s.cfg.labelBytes → exec (.pushLabel e) s = .refused (.operandSize e.length)) ∧
    (e.length ≠ s.cfg.deleteBytes → exec (.pushDelete e) s = .refused (.operandSize e.length))) ∧
  (∀ (s : State) (k : Field) (f : WireFrame),
    (s.cfg.rowOf k = none → exec (Instr.ofField k f) s = .refused (.noCommandRow k)) ∧
    (∀ row, s.cfg.rowOf k = some row → f.payload.length ≠ row.size →
      exec (Instr.ofField k f) s = .refused (.operandSize f.payload.length)))

/-! ## Encoding -/

/-- Codes written out from 30_encoding.md R96 and from the frames of 95_test_vectors.md decode, under
CFG_T, to the instructions they stand for. -/
def Obligations.WrittenOutCodesDecode : Prop :=
  decode Config.cfgT (.port 0x0 []) = .ok .reset ∧
  decode Config.cfgT (.port 0x4 [0x01, 0x03]) = .ok (.pushDelete [0x01, 0x03]) ∧
  decode Config.cfgT (.port 0x9 [0x65, 0x00]) = .ok (.pack 0x0065) ∧
  decode Config.cfgT (.port 0xC [0x02, 0x00]) = .ok (.readField 2) ∧
  decode Config.cfgT (.inbound
      [0xA5, 0x03, 0x00, 0x00, 0x27, 0x01, 0x00, 0x11, 0x22, 0x33, 0x5F, 0x86]) =
    .ok (.fGameStatus ⟨3, 0, [0x11, 0x22, 0x33], 0x865F⟩) ∧
  decode Config.cfgT (.inbound
      [0xA5, 0x04, 0x00, 0x00, 0x5D, 0x01, 0x02, 0xDE, 0xAD, 0xBE, 0xEF, 0xD4, 0x6C]) =
    .ok (.fRobotStatus ⟨4, 0, [0xDE, 0xAD, 0xBE, 0xEF], 0x6CD4⟩) ∧
  decode Config.cfgT (.outbound
      [0xA5, 0x08, 0x00, 0x00, 0xE6, 0x01, 0x03, 0x00, 0x01, 0x01, 0x00, 0x01, 0x01, 0x01, 0x03,
       0x37, 0x7A]) =
    .ok (.uiDelete 1 [0x01, 0x03])

/-- Decoding inverts encoding, for every instruction with every operand the encoding admits. -/
def Obligations.DecodeInvertsEncode : Prop :=
  ∀ (c : Cfg) (i : Instr), c.WF → c.subIds.Nodup → i.wellFormed c = true →
    decode c (encode c i) = .ok i

/-- Encoding inverts decoding: a code that decodes is the code of what it decodes to, so no byte of it
is ignored. -/
def Obligations.EncodeInvertsDecode : Prop :=
  ∀ (c : Cfg) (code : Code) (i : Instr), c.WF → decode c code = .ok i → encode c i = code

/-! ## Invariants -/

/-- The state after reset meets the invariant, under every configuration that meets R5. -/
def Obligations.ResetMeetsTheInvariant : Prop :=
  State.reset.Inv ∧ ∀ c : Cfg, c.WF → (State.resetWith c).Inv

/-- Every step keeps the invariant: register widths (R20), the counter's width (R23), queue bounds and
element sizes (R25, R27), `TXB_MAX` (R30), the cursor within its buffer (R154). -/
def Obligations.StepKeepsTheInvariant : Prop :=
  ∀ s t : State, s.Inv → step s = .next t → t.Inv

/-- A step from between two operations ends between two operations: a whole `DECODE` or `PACK` is one
step, and the cursor is dead at return (R24, R59). -/
def Obligations.StepEndsBetweenOperations : Prop :=
  ∀ s t : State, s.Idle → step s = .next t → t.Idle

/-- No instruction and no step changes the configuration (R351). -/
def Obligations.ConfigurationNeverChanges : Prop :=
  (∀ (i : Instr) (s t : State), exec i s = .next t → t.cfg = s.cfg) ∧
  (∀ s t : State, step s = .next t → t.cfg = s.cfg)

/-! ## Who writes what -/

/-- The bank and the counter are written by `DECODE`, its wire instructions and `RESET` only (R21, R23);
`STATUS` by `DECODE`, `RESET`, `SET_OFFLINE` and `RESTART` only (R22). -/
def Obligations.OnlyDecodeAndResetWriteTelemetry : Prop :=
  ∀ (i : Instr) (s t : State), exec i s = .next t → i ≠ .reset → (∀ rx, i ≠ .decode rx) →
    ((∀ k f, i ≠ Instr.ofField k f) → t.T = s.T ∧ t.dropcnt = s.dropcnt) ∧
    (i ≠ .setOffline → i ≠ .restart → t.status = s.status)

/-- DMX and SQ with PF are independent (41_demux_decode.md section 2, an inference the spec marks as its
own): `DECODE` goes the same way whatever the queues and the
buffer hold and leaves them, and the queue and framer operations go the same way whatever the bank,
`STATUS` and `DROPCNT` hold and leave them. -/
def Obligations.DecodeAndFramingAreIndependent : Prop :=
  (∀ (rx : Bytes) (s t : State) (gq lq dq : List Bytes) (txb : Bytes),
    exec (.decode rx) s = .next t →
    exec (.decode rx) { s with gq := gq, lq := lq, dq := dq, txb := txb } =
      .next { t with gq := gq, lq := lq, dq := dq, txb := txb }) ∧
  (∀ (i : Instr) (s t : State) (T : List Bytes) (st : Status) (n : Nat),
    ((∃ op : QueueOp, i = op.instr) ∨ i = .graphicCount ∨ ∃ sender, i = .pack sender) →
    exec i s = .next t →
    exec i { s with T := T, status := st, dropcnt := n } =
      .next { t with T := T, status := st, dropcnt := n })

/-! ## SQ -/

/-- The pushes (R191 to R193): `QUEUE_FULL` exactly when the count is the capacity, else the element goes
to the end of its queue. -/
def Obligations.PushStoresOrReportsFull : Prop :=
  ∀ (s : State) (e : Bytes),
    (e.length = s.cfg.graphicBytes → exec (.pushGraphic e) s = .next (
      if s.gq.length = s.cfg.capG then { s with result := .queueFull }
      else { s with gq := s.gq ++ [e], result := .ok })) ∧
    (e.length = s.cfg.labelBytes → exec (.pushLabel e) s = .next (
      if s.lq.length = s.cfg.capL then { s with result := .queueFull }
      else { s with lq := s.lq ++ [e], result := .ok })) ∧
    (e.length = s.cfg.deleteBytes → exec (.pushDelete e) s = .next (
      if s.dq.length = s.cfg.capD then { s with result := .queueFull }
      else { s with dq := s.dq ++ [e], result := .ok }))

/-- The pops (R194 to R196): `NONE` on the empty queue, else the oldest element. -/
def Obligations.PopReturnsTheOldest : Prop :=
  ∀ s : State,
    (exec .popDelete s = .next (
      match s.dq with
      | [] => { s with result := .noElement }
      | e :: rest => { s with dq := rest, result := .element e })) ∧
    (exec .popGraphic s = .next (
      match s.gq with
      | [] => { s with result := .noElement }
      | e :: rest => { s with gq := rest, result := .element e })) ∧
    (exec .popLabel s = .next (
      match s.lq with
      | [] => { s with result := .noElement }
      | e :: rest => { s with lq := rest, result := .element e }))

/-- A push or a pop touches its own queue and the result, and nothing else; a count touches no queue
(R198, R200). -/
def Obligations.QueueOperationsTouchOneQueue : Prop :=
  (∀ (op : QueueOp) (s t : State), exec op.instr s = .next t →
    ∃ (es : List Bytes) (r : Result), t = { s.setQueue op.queue es with result := r }) ∧
  ∀ s t : State, exec .graphicCount s = .next t → ∃ r : Result, t = { s with result := r }

/-- FIFO (42_staging_queue.md section 3, an inference the spec marks as its own): over any sequence of queue operations, what the queue held and what was stored is, in
order, what came out and what the queue holds, and the queue stays within its capacity. -/
def Obligations.QueuesAreFifo : Prop :=
  ∀ (q : Queue) (ops : List QueueOp) (s : State), (s.queue q).length ≤ q.cap s.cfg →
    let h := history q ops s
    s.queue q ++ h.1 = h.2.1 ++ h.2.2.queue q ∧ (h.2.2.queue q).length ≤ q.cap s.cfg

/-- The ring of 10_state.md section 3 (R26, an inference the spec marks as its own) is a realisation of
the list of R25: it takes an element exactly when it is not full,
at the end; it gives one exactly when it is not empty, the oldest; its indices stay in range. -/
def Obligations.RingRefinesTheQueue : Prop :=
  ∀ (r : Ring) (e : Bytes), r.WF →
    r.toList.length = r.count ∧
    (r.push e = none ↔ r.toList.length = r.slots.length) ∧
    (∀ r', r.push e = some r' → r'.WF ∧ r'.slots.length = r.slots.length ∧
      r'.toList = r.toList ++ [e]) ∧
    (r.pop = none ↔ r.toList = []) ∧
    (∀ x r', r.pop = some (x, r') → r'.WF ∧ r'.slots.length = r.slots.length ∧
      r.toList = x :: r'.toList)

/-! ## The wire instructions -/

/-- The first eight variants (R160 to R167) commit or count. -/
def Obligations.VariantsUpToPositionCommitOrCount : Prop :=
  CommitsOrCounts .fGameStatus .gameStatus ∧ CommitsOrCounts .fGameResult .gameResult ∧
  CommitsOrCounts .fRobotHp .robotHp ∧ CommitsOrCounts .fDartStatus .dartStatus ∧
  CommitsOrCounts .fFieldEvents .fieldEvents ∧ CommitsOrCounts .fRobotStatus .robotStatus ∧
  CommitsOrCounts .fPowerHeat .powerHeat ∧ CommitsOrCounts .fPosition .position

/-- The other variants (R168 to R175) commit or count, and the destination of `F.OTHER[j]` is `T[j]`, with
`j` in `15 .. NCMD-1` (R175; that the table stands in the order of its destinations is log entry 9, what
that leaves of an unnamed row is log entry 22). -/
def Obligations.VariantsFromBuffsCommitOrCount : Prop :=
  CommitsOrCounts .fBuffs .buffs ∧ CommitsOrCounts .fDamage .damage ∧
  CommitsOrCounts .fLauncherData .launcherData ∧
  CommitsOrCounts .fBulletsRemaining .bulletsRemaining ∧ CommitsOrCounts .fRfid .rfid ∧
  CommitsOrCounts .fClientMaps .clientMaps ∧ CommitsOrCounts .fKeyboardMouse .keyboardMouse ∧
  (∀ j, CommitsOrCounts (.fOther j) (.other j)) ∧
  ∀ (c : Cfg) (j : Nat) (row : CmdRow), c.WF → c.rowOf (.other j) = some row →
    c.regOf (.other j) = some j ∧ 15 ≤ j ∧ j < c.ncmd

/-- `F.UNKNOWN` (R148, R176) ends the call with the id and the cursor, and changes nothing else. -/
def Obligations.UnknownIdEndsTheCall : Prop :=
  ∀ (s : State) (dl : Half) (seq : Byte) (id : Half),
    (∀ rx cur, s.activity = .scanning rx cur →
      exec (.fUnknown dl seq id) s = .next (ended (.errUnknownCmd id cur) s)) ∧
    ∃ pos, exec (.fUnknown dl seq id) s = .next (ended (.errUnknownCmd id pos) s)

/-! ## One turn of the scan -/

/-- A byte that is not `SOF` (R142) and a `SOF` whose header fails `HDRCHK` (R143) cost one byte, and
nothing else changes. -/
def Obligations.ScanSkipsNoise : Prop :=
  ∀ (s : State) (rx : Bytes) (cur : Nat), s.cfg.WF → s.activity = .scanning rx cur →
    (∀ b, rx[cur]? = some b → b ≠ s.cfg.sof →
      step s = .next { s with activity := .scanning rx (cur + 1) }) ∧
    (rx[cur]? = some s.cfg.sof → cur + 5 ≤ rx.length → s.cfg.hdrChk (slice rx cur 5) = false →
      step s = .next { s with activity := .scanning rx (cur + 1) })

/-- The end of the buffer ends the call with `OK`: at the cursor (R154), inside a header (R144), inside a
command id (R146), inside a frame, which is counted (R150). -/
def Obligations.ScanEndsWithTheBuffer : Prop :=
  ∀ (s : State) (rx : Bytes) (cur : Nat), s.cfg.WF → s.activity = .scanning rx cur →
    (rx.length ≤ cur → step s = .next (ended .ok s)) ∧
    (rx[cur]? = some s.cfg.sof → rx.length < cur + 5 → step s = .next (ended .ok s)) ∧
    (rx[cur]? = some s.cfg.sof → s.cfg.hdrChk (slice rx cur 5) = true → rx.length < cur + 7 →
      step s = .next (ended .ok s)) ∧
    (∀ row, rx[cur]? = some s.cfg.sof → s.cfg.hdrChk (slice rx cur 5) = true →
      cur + 7 ≤ rx.length → s.cfg.lookup (rd16 rx (cur + 5)) = some row →
      rx.length < cur + 9 + row.size →
      step s = .next (ended .ok { s with dropcnt := (s.dropcnt + 1) % 2 ^ s.cfg.dropcntW }))

/-- A whole frame of a known variant with a valid header (R145, R147, R149): `FRMCHK` over its span
decides between the commit of its payload (R151) and a count (R152), and the cursor passes the span in
both cases (R153). -/
def Obligations.ScanRunsWholeFrames : Prop :=
  ∀ (s : State) (rx : Bytes) (cur : Nat) (row : CmdRow) (reg : Nat),
    s.cfg.WF → s.activity = .scanning rx cur → s.cfg.hdrChk (slice rx cur 5) = true →
    s.cfg.lookup (rd16 rx (cur + 5)) = some row → s.cfg.regOf row.field = some reg →
    cur + 9 + row.size ≤ rx.length →
    step s = .next (
      if s.cfg.frmChk (slice rx cur (9 + row.size)) then
        { s with T := s.T.set reg (slice rx (cur + 7) row.size)
                 activity := .scanning rx (cur + 9 + row.size) }
      else
        { s with dropcnt := (s.dropcnt + 1) % 2 ^ s.cfg.dropcntW
                 activity := .scanning rx (cur + 9 + row.size) })

/-- A valid header with an id that has no row ends the call (R148): the error carries the id and the
index of the start byte, and nothing else changes. -/
def Obligations.ScanAbortsAtAnUnknownId : Prop :=
  ∀ (s : State) (rx : Bytes) (cur : Nat),
    s.cfg.WF → s.activity = .scanning rx cur → s.cfg.hdrChk (slice rx cur 5) = true →
    cur + 7 ≤ rx.length → s.cfg.lookup (rd16 rx (cur + 5)) = none →
    step s = .next (ended (.errUnknownCmd (rd16 rx (cur + 5)) cur) s)

/-! ## `DECODE` -/

/-- `DECODE` (R140, R141): it always completes (R154, an inference the spec marks as its own), sets
`STATUS` to `RUNNING`, and its writes to the bank, the number of dropped frames and its result are a
function of the configuration and the buffer alone (R158, another). It writes nothing else. -/
def Obligations.DecodeIsAFunctionOfTheBuffer : Prop :=
  ∀ (c : Cfg) (rx : Bytes), c.WF → rx.length ≤ c.rxbufMax →
    ∃ (writes : List (Nat × Bytes)) (drops : Nat) (r : Result),
      (r = .ok ∨ ∃ id pos, r = .errUnknownCmd id pos) ∧
      ∀ s : State, s.cfg = c → exec (.decode rx) s = .next
        { s with
          status := .running
          T := writes.foldl (fun T w => T.set w.1 w.2) s.T
          dropcnt := (fun n => (n + 1) % 2 ^ c.dropcntW)^[drops] s.dropcnt
          result := r
          activity := .idle }

/-- `DECODE` as one operation is its loop run to the end, one turn a step, in at most `len + 1` turns
(R59, R140, R154). -/
def Obligations.DecodeIsItsLoopRunToTheEnd : Prop :=
  ∀ (s : State) (rx : Bytes), s.cfg.WF → rx.length ≤ s.cfg.rxbufMax →
    ∃ k ≤ rx.length + 1,
      Sys2Proof.core.run k { s with status := .running, activity := .scanning rx 0 } =
        exec (.decode rx) s

/-- A frame with right checksums is committed whatever `data_length` and `seq` it carries (R155), and
updates exactly its own register (R151). -/
def Obligations.DecodeCommitsAValidFrame : Prop :=
  ∀ (s : State) (id dl : Half) (seq : Byte) (p : Bytes) (row : CmdRow) (reg : Nat),
    s.cfg.WF → s.cfg.lookup id = some row → s.cfg.regOf row.field = some reg →
    p.length = row.size → 9 + row.size ≤ s.cfg.rxbufMax →
    exec (.decode (s.cfg.framed id dl seq p)) s =
      .next (ended .ok { s with status := .running, T := s.T.set reg p })

/-- A frame whose trailer is wrong commits nothing and is counted; `DECODE` still returns `OK` (R152). -/
def Obligations.DecodeDropsABadFrame : Prop :=
  ∀ (s : State) (id : Half) (f : WireFrame) (row : CmdRow),
    s.cfg.WF → s.cfg.lookup id = some row → f.payload.length = row.size →
    9 + row.size ≤ s.cfg.rxbufMax → s.cfg.frmChk (s.cfg.frameBytes id f) = false →
    exec (.decode (s.cfg.frameBytes id f)) s =
      .next (ended .ok { s with status := .running
                                dropcnt := (s.dropcnt + 1) % 2 ^ s.cfg.dropcntW })

/-- Frames are processed in the order of the buffer, each on what the ones before it left, and the bytes
between them that are no start byte are skipped (R142, R153, R157). -/
def Obligations.DecodeProcessesFramesInOrder : Prop :=
  ∀ (s : State) (items : List Item) (tail : Bytes), s.cfg.WF →
    (∀ it ∈ items, it.Fits s.cfg) → (∀ b ∈ tail, b ≠ s.cfg.sof) →
    (render s.cfg items ++ tail).length ≤ s.cfg.rxbufMax →
    exec (.decode (render s.cfg items ++ tail)) s =
      .next (ended .ok (items.foldl applyItem { s with status := .running }))

/-- An unknown command id (R148, R313): the call ends with the id and the index of its start byte, what
the frames before it did stays, and what follows it has no effect. -/
def Obligations.DecodeAbortKeepsEarlierCommits : Prop :=
  ∀ (s : State) (items : List Item) (noise : Bytes) (dl : Half) (seq : Byte) (id : Half)
    (rest : Bytes), s.cfg.WF → (∀ it ∈ items, it.Fits s.cfg) → (∀ b ∈ noise, b ≠ s.cfg.sof) →
    s.cfg.lookup id = none →
    (render s.cfg items ++ noise ++ s.cfg.hdrGen dl seq ++ le16 id ++ rest).length ≤
      s.cfg.rxbufMax →
    exec (.decode (render s.cfg items ++ noise ++ s.cfg.hdrGen dl seq ++ le16 id ++ rest)) s =
      .next (ended (.errUnknownCmd id ((render s.cfg items).length + noise.length))
        (items.foldl applyItem { s with status := .running }))

/-- Bytes that are no start byte in front of a buffer change nothing but the index an error carries
(R142). -/
def Obligations.LeadingNoiseIsSkipped : Prop :=
  ∀ (s t : State) (noise rx : Bytes), s.cfg.WF → (∀ b ∈ noise, b ≠ s.cfg.sof) →
    (noise ++ rx).length ≤ s.cfg.rxbufMax → exec (.decode rx) s = .next t →
    exec (.decode (noise ++ rx)) s = .next { t with result := shifted noise.length t.result }

/-- A register that `DECODE` changes holds the payload of a frame of the buffer that has a valid header,
the command id of that register's row, and a right trailer (R21, R58). -/
def Obligations.TelemetryComesFromValidatedFrames : Prop :=
  ∀ (s t : State) (rx : Bytes), s.cfg.WF → exec (.decode rx) s = .next t →
    ∀ k : Nat, t.T[k]? = s.T[k]? ∨
      ∃ (pos : Nat) (row : CmdRow), pos + 9 + row.size ≤ rx.length ∧
        s.cfg.hdrChk (slice rx pos 5) = true ∧
        s.cfg.lookup (rd16 rx (pos + 5)) = some row ∧
        s.cfg.frmChk (slice rx pos (9 + row.size)) = true ∧
        s.cfg.regOf row.field = some k ∧
        t.T[k]? = some (slice rx (pos + 7) row.size)

/-- Decoding the same buffer twice leaves the bank as decoding it once (20_memory.md R63, an inference
the spec marks as its own). -/
def Obligations.DecodingTwiceIsDecodingOnce : Prop :=
  ∀ (s t u : State) (rx : Bytes), s.cfg.WF → exec (.decode rx) s = .next t →
    exec (.decode rx) t = .next u → u.T = t.T

/-! ## PF -/

/-- Headers and frames PF generates pass the checks of HV and DMX (the laws of 40_crc_header_validator.md
for `HDRGEN` and `FRMGEN`, inferences the spec marks as its own). -/
def Obligations.GeneratedHeadersAndFramesPass : Prop :=
  ∀ c : Cfg, (∀ dl seq, c.hdrChk (c.hdrGen dl seq) = true) ∧
    ∀ pre : Bytes, 7 ≤ pre.length → c.frmChk (c.frmGen pre) = true

/-- `receiver` (R229): the two branches, and that they coincide, `receiver(s) = (s + 256) mod 65536`, which
R229 marks as an inference of the spec's own. The reduction to 16 bits is the spec's decision D21 (log
entry 18). -/
def Obligations.ReceiverAdds256 : Prop :=
  ∀ s : Half, receiver s = s + 256 ∧
    (s.toNat > 100 → receiver s = BitVec.ofNat 16 (s.toNat - 101 + 0x0165)) ∧
    (s.toNat ≤ 100 → (receiver s).toNat = s.toNat + 0x0100)

/-- The layout of an outbound frame (R90, R230 to R234). -/
def Obligations.UiFrameLayout : Prop :=
  ∀ (c : Cfg) (sub sender : Half) (body : Bytes),
    let fr := c.uiFrame sub sender body
    let dl := BitVec.ofNat 16 (6 + body.length)
    fr.length = 15 + body.length ∧
    fr.take 5 = c.hdrGen dl 0 ∧ fr.getD 0 0 = c.sof ∧ rd16 fr 1 = dl ∧ fr.getD 3 0 = 0 ∧
    rd16 fr 5 = c.outerCmdId ∧ rd16 fr 7 = sub ∧ rd16 fr 9 = sender ∧
    rd16 fr 11 = receiver sender ∧ slice fr 13 body.length = body ∧
    rd16 fr (13 + body.length) = c.crc16 (fr.take (13 + body.length))

/-- `PACK` with a delete pending (R221, R222): the oldest delete, alone. -/
def Obligations.PackFramesTheOldestDelete : Prop :=
  ∀ (s : State) (sender : Half) (d : Bytes) (ds : List Bytes), s.dq = d :: ds →
    exec (.pack sender) s =
      .next (issued (s.cfg.uiFrame s.cfg.subDelete sender d) { s with dq := ds })

/-- `PACK` with graphics and no delete pending (R223 to R226): the capacity and the sub-command of the
table, the oldest graphics first, inert slots after them, the excess over 7 left queued. -/
def Obligations.PackFramesABatch : Prop :=
  ∀ (s : State) (sender : Half) (cap : Nat) (sub : Half), s.dq = [] →
    BatchRow s.cfg s.gq.length cap sub →
    exec (.pack sender) s =
      .next (issued (s.cfg.uiFrame sub sender ((s.gq.take 7).flatten ++
          (List.replicate (cap - s.gq.length) s.cfg.inertSlot).flatten))
        { s with gq := s.gq.drop 7 })

/-- `PACK` with a label and nothing else pending (R227): the oldest label, alone. -/
def Obligations.PackFramesTheOldestLabel : Prop :=
  ∀ (s : State) (sender : Half) (l : Bytes) (ls : List Bytes), s.dq = [] → s.gq = [] →
    s.lq = l :: ls →
    exec (.pack sender) s =
      .next (issued (s.cfg.uiFrame s.cfg.subString sender l) { s with lq := ls })

/-- `PACK` answers `NOTHING_PENDING` exactly when the three queues are empty; then nothing changes
(R228). -/
def Obligations.PackReportsNothingPending : Prop :=
  ∀ (s : State) (sender : Half),
    (s.dq = [] → s.gq = [] → s.lq = [] →
      exec (.pack sender) s = .next (ended .nothingPending s)) ∧
    (∀ t, exec (.pack sender) s = .next t → t.result = .nothingPending →
      s.dq = [] ∧ s.gq = [] ∧ s.lq = [])

/-- The outbound frames PF issues (R222 to R227): each takes what it frames out of its queue. -/
def Obligations.UiFramesTakeWhatTheyFrame : Prop :=
  ∀ (s : State) (sender : Half) (body : Bytes),
    (∀ ds, s.dq = body :: ds → exec (.uiDelete sender body) s =
      .next (issued (s.cfg.uiFrame s.cfg.subDelete sender body) { s with dq := ds })) ∧
    (∀ ls, s.lq = body :: ls → exec (.uiString sender body) s =
      .next (issued (s.cfg.uiFrame s.cfg.subString sender body) { s with lq := ls })) ∧
    (s.gq ≠ [] → body = slots s.cfg 1 s.gq → exec (.uiDraw1 sender body) s =
      .next (issued (s.cfg.uiFrame s.cfg.subDraw1 sender body) { s with gq := s.gq.drop 1 })) ∧
    (s.gq ≠ [] → body = slots s.cfg 2 s.gq → exec (.uiDraw2 sender body) s =
      .next (issued (s.cfg.uiFrame s.cfg.subDraw2 sender body) { s with gq := s.gq.drop 2 })) ∧
    (s.gq ≠ [] → body = slots s.cfg 5 s.gq → exec (.uiDraw5 sender body) s =
      .next (issued (s.cfg.uiFrame s.cfg.subDraw5 sender body) { s with gq := s.gq.drop 5 })) ∧
    (s.gq ≠ [] → body = slots s.cfg 7 s.gq → exec (.uiDraw7 sender body) s =
      .next (issued (s.cfg.uiFrame s.cfg.subDraw7 sender body) { s with gq := s.gq.drop 7 }))

/-- An outbound frame of a body that its queue does not hold, which PF never issues: the frame goes out
and the queues stand (the model's choice, log entry 8). -/
def Obligations.UiFramesOfOtherBodiesLeaveTheQueues : Prop :=
  ∀ (s : State) (sender : Half) (body : Bytes),
    (s.dq.head? ≠ some body → exec (.uiDelete sender body) s =
      .next (issued (s.cfg.uiFrame s.cfg.subDelete sender body) s)) ∧
    (s.lq.head? ≠ some body → exec (.uiString sender body) s =
      .next (issued (s.cfg.uiFrame s.cfg.subString sender body) s)) ∧
    (s.gq = [] ∨ body ≠ slots s.cfg 1 s.gq → exec (.uiDraw1 sender body) s =
      .next (issued (s.cfg.uiFrame s.cfg.subDraw1 sender body) s)) ∧
    (s.gq = [] ∨ body ≠ slots s.cfg 2 s.gq → exec (.uiDraw2 sender body) s =
      .next (issued (s.cfg.uiFrame s.cfg.subDraw2 sender body) s)) ∧
    (s.gq = [] ∨ body ≠ slots s.cfg 5 s.gq → exec (.uiDraw5 sender body) s =
      .next (issued (s.cfg.uiFrame s.cfg.subDraw5 sender body) s)) ∧
    (s.gq = [] ∨ body ≠ slots s.cfg 7 s.gq → exec (.uiDraw7 sender body) s =
      .next (issued (s.cfg.uiFrame s.cfg.subDraw7 sender body) s))

/-- Every frame `PACK` returns passes `HDRCHK` and `FRMCHK`, has `seq` 0, the outer command id and the
`data_length` of its length (R237, an inference the spec marks as its own), stands in `TXB` and is
within `TXB_MAX`. -/
def Obligations.PackedFramesAreWellFormed : Prop :=
  ∀ (s t : State) (sender : Half) (fr : Bytes), s.Inv → exec (.pack sender) s = .next t →
    t.result = .frame fr →
    s.cfg.hdrChk (fr.take 5) = true ∧ s.cfg.frmChk fr = true ∧ fr.getD 3 0 = 0 ∧
    rd16 fr 5 = s.cfg.outerCmdId ∧ (rd16 fr 1).toNat = fr.length - 9 ∧
    t.txb = fr ∧ fr.length ≤ s.cfg.txbMax

/-- Emptying SQ (R238, an inference the spec marks as its own): `d + ceil(g / 7) + l` frames, all deletes, then the graphics in groups of 7,
then all labels; the next call answers `NOTHING_PENDING`. -/
def Obligations.DrainingFollowsThePriority : Prop :=
  ∀ (s : State) (sender : Half) (n : Nat),
    s.dq.length + (s.gq.length + 6) / 7 + s.lq.length < n →
    (drainFrames s sender).length = s.dq.length + (s.gq.length + 6) / 7 + s.lq.length ∧
    drain sender n s = (drainFrames s sender,
      { s with dq := [], gq := [], lq := []
               txb := (drainFrames s sender).getLastD s.txb
               result := .nothingPending, activity := .idle })

/-- PF's delete frame looped back into DMX (vector V117; R93, an inference the spec marks as its own): with a row for the outer command id of the right
size its sub-header and body are committed, with no row the call ends with `ERR_UNKNOWN_CMD`. -/
def Obligations.LoopBackOfADeleteFrame : Prop :=
  ∀ (s t : State) (sender : Half) (d : Bytes) (ds : List Bytes), s.cfg.WF → s.dq = d :: ds →
    15 + d.length ≤ s.cfg.rxbufMax → exec (.pack sender) s = .next t →
    (∀ row reg, s.cfg.lookup s.cfg.outerCmdId = some row → s.cfg.regOf row.field = some reg →
      row.size = 6 + d.length →
      exec (.decode t.txb) t = .next (ended .ok { t with
        status := .running
        T := t.T.set reg (le16 s.cfg.subDelete ++ le16 sender ++ le16 (receiver sender) ++ d) })) ∧
    (s.cfg.lookup s.cfg.outerCmdId = none →
      exec (.decode t.txb) t =
        .next (ended (.errUnknownCmd s.cfg.outerCmdId 0) { t with status := .running }))

/-! ## The agents around the block -/

/-- `FAST_TICK` (R262 to R269): the body of the phase is staged in order in the mode in force, as far as
the queue has room; the phase advances modulo 5, or to 0 from a value out of range; the mode becomes
REWRITE. The bytes of the elements are free values. -/
def Obligations.FastTickStagesThePhase : Prop :=
  ∀ (s : State) (m : ModeSnapshot), s.gq.length ≤ s.cfg.capG →
    let shapes := shapesOf s.env.phase.toNat m
    agent (.fastTick m) s = .next { s with
      gq := s.gq ++ ((shapes.zipIdx s.fresh).map fun x =>
        drawn s.env.screen s.env.graphicOp s.cfg.graphicBytes x.2 x.1).take (s.cfg.capG - s.gq.length)
      fresh := s.fresh + shapes.length
      env := { s.env with
        phase := if s.env.phase.toNat < 5 then BitVec.ofNat 3 ((s.env.phase.toNat + 1) % 5) else 0
        graphicOp := .rewrite }
      result := .nothing }

/-- Fast ticks with no slow tick between them visit the phases in turn (R262): after `n` of them the
phase has advanced by `n` modulo 5. -/
def Obligations.FastTicksVisitThePhasesInTurn : Prop :=
  ∀ (ms : List ModeSnapshot) (s : State), s.env.phase.toNat < 5 →
    (agents (ms.map .fastTick) s).env.phase.toNat = (s.env.phase.toNat + ms.length) % 5 ∧
    (ms ≠ [] → (agents (ms.map .fastTick) s).env.graphicOp = .rewrite)

/-- `SLOW_TICK` (R270): mode ADD, phase 1, and six labels and the divider line staged in that mode, as
far as the queues have room. -/
def Obligations.SlowTickStagesTheBundle : Prop :=
  ∀ s : State, s.gq.length ≤ s.cfg.capG → s.lq.length ≤ s.cfg.capL →
    let label := fun (d : Nat) (sh : Shape) => drawn s.env.screen .add s.cfg.labelBytes (s.fresh + d) sh
    agent .slowTick s = .next { s with
      lq := s.lq ++ [label 0 (.legend 1), label 1 (.legend 2), label 2 (.legend 3),
        label 3 (.legend 4), label 5 (.title 1), label 6 (.title 2)].take
          (s.cfg.capL - s.lq.length)
      gq := s.gq ++ [drawn s.env.screen .add s.cfg.graphicBytes (s.fresh + 4) .dividerLine].take
          (s.cfg.capG - s.gq.length)
      fresh := s.fresh + 7
      env := { s.env with phase := 1, graphicOp := .add }
      result := .nothing }

/-- `SEND` (R277, R279): each accepted frame takes the place of the one in flight, if any, which is
released then and not before; a refused frame changes nothing but the notifications. The notifications
counted are those of the `SEND`s alone: whether a completed transfer raises another, the spec leaves
open, and in the model an input says (log entry 25). -/
def Obligations.SendsReleaseThePreviousBuffer : Prop :=
  (∀ (s : State) (fr : Bytes), agent (.send fr false) s = .next { s with
    env := { s.env with sendComplete := s.env.sendComplete + 1 }, result := .sendError }) ∧
  (∀ (s : State) (frs : List Bytes) (last : Bytes),
    (agents ((frs ++ [last]).map (.send · true)) s).env = { s.env with
      inflight := some last
      released := s.env.released ++ s.env.inflight.toList ++ frs
      sendComplete := s.env.sendComplete + frs.length + 1 })

/-- The mailbox (R284, R285): a post replaces what the slot held, a take consumes and clears it, and on
the empty slot the taker waits. That the wait is a step of its own, which answers `waiting` and changes
nothing else, is the model's choice (log entry 17). -/
def Obligations.MailboxHoldsTheLastPost : Prop :=
  ∀ s : State,
    (∀ e, agent (.post e) s =
      .next { s with env := { s.env with mailbox := some e }, result := .nothing }) ∧
    (∀ e, s.env.mailbox = some e → agent .take s =
      .next { s with env := { s.env with mailbox := none }, result := .event e }) ∧
    (s.env.mailbox = none → agent .take s = .next { s with result := .waiting })

/-- The agents reach the block through its port operations only: but for the consumer's `DECODE`, they
change nothing of it but the graphic and label queues. -/
def Obligations.AgentsReachTheBlockThroughItsQueues : Prop :=
  (∀ s : State, agent .decodeReceived s = exec (.decode s.env.rx) s) ∧
  (∀ (a : AgentOp) (s t : State), a ≠ .decodeReceived → agent a s = .next t →
    t.T = s.T ∧ t.status = s.status ∧ t.dropcnt = s.dropcnt ∧ t.dq = s.dq ∧ t.txb = s.txb ∧
    t.activity = s.activity ∧ t.cfg = s.cfg ∧ t.inputs = s.inputs)

/-! ## The reference checksums -/

/-- The check values of R128 and R129 (general knowledge, not the source). -/
def Obligations.ReferenceChecksumValues : Prop :=
  let digits : Bytes := [0x31, 0x32, 0x33, 0x34, 0x35, 0x36, 0x37, 0x38, 0x39]
  crc8Reference digits 0xFF = 0x0B ∧ crc8Reference [] 0xFF = 0xFF ∧
  crc8Reference [0x00] 0xFF = 0x35 ∧ crc8Reference [0xA5, 0x03, 0x00, 0x00] 0xFF = 0x27 ∧
  crc16Reference digits 0xFFFF = 0x6F91 ∧ crc16Reference [] 0xFFFF = 0xFFFF ∧
  crc16Reference [0x00] 0xFFFF = 0x0F87
end

