-- ==== Sys2Proof/Laws/Encoding.lean ====
section
/-! SUPPORT. The small lemmas of the encodings: 16-bit fields, byte ranges, the lengths and the fields of
headers and frames, the table lookups. -/

namespace Sys2Proof

@[simp] theorem le16_length (v : Half) : (le16 v).length = 2 := rfl

/-- Reading the two bytes of a 16-bit value gives the value back. -/
theorem extract_append (v : Half) : v.extractLsb' 8 8 ++ v.extractLsb' 0 8 = v := by
  apply BitVec.eq_of_getLsbD_eq
  intro i hi
  simp only [BitVec.getLsbD_append, BitVec.getLsbD_extractLsb']
  by_cases h : i < 8
  · simp [h]
  · have h1 : i - 8 < 8 := by omega
    have h2 : 8 + (i - 8) = i := by omega
    simp [h, h1, h2]

@[simp] theorem rd16_le16 (v : Half) : rd16 (le16 v) 0 = v := extract_append v

/-- Reading at the start of an appended 16-bit value. -/
theorem rd16_append_le16 (a b : Bytes) (v : Half) (n : Nat) (h : a.length = n) :
    rd16 (a ++ (le16 v ++ b)) n = v := by
  subst h
  have h0 : (a ++ (le16 v ++ b)).getD a.length 0 = v.extractLsb' 0 8 := by
    simp [List.getD_eq_getElem?_getD, le16]
  have h1 : (a ++ (le16 v ++ b)).getD (a.length + 1) 0 = v.extractLsb' 8 8 := by
    simp [List.getD_eq_getElem?_getD, le16]
  unfold rd16
  rw [h0, h1]
  exact extract_append v

/-- Reading inside a suffix. -/
theorem rd16_append_right (a b : Bytes) (i n : Nat) (h : a.length = n) :
    rd16 (a ++ b) (n + i) = rd16 b i := by
  subst h
  have h1 : a.length + i + 1 = a.length + (i + 1) := by omega
  simp [rd16, List.getD_eq_getElem?_getD, h1, List.getElem?_append_right]

/-- Reading inside a prefix. -/
theorem rd16_append_left (a b : Bytes) (i : Nat) (h : i + 1 < a.length) :
    rd16 (a ++ b) i = rd16 a i := by
  have h1 : i < a.length := by omega
  simp [rd16, List.getD_eq_getElem?_getD, List.getElem?_append_left, h, h1]

/-- The low byte of two bytes put together. -/
theorem append_low (x y : Byte) : (x ++ y).extractLsb' 0 8 = y := by
  apply BitVec.eq_of_getLsbD_eq
  intro j hj
  rw [BitVec.getLsbD_extractLsb', BitVec.getLsbD_append]
  simp [hj]

/-- The high byte of two bytes put together. -/
theorem append_high (x y : Byte) : (x ++ y).extractLsb' 8 8 = x := by
  apply BitVec.eq_of_getLsbD_eq
  intro j hj
  rw [BitVec.getLsbD_extractLsb', BitVec.getLsbD_append]
  simp [hj]

/-- Writing what was read gives the two bytes back. -/
theorem le16_rd16 (b : Bytes) (i : Nat) (h : i + 2 ≤ b.length) : le16 (rd16 b i) = slice b i 2 := by
  have h0 : i < b.length := by omega
  have h1 : i + 1 < b.length := by omega
  have hd : slice b i 2 = [b[i], b[i + 1]] := by
    unfold slice
    rw [List.drop_eq_getElem_cons h0, List.drop_eq_getElem_cons h1]; rfl
  rw [hd]
  simp only [le16, rd16, List.getD_eq_getElem?_getD, List.getElem?_eq_getElem h0,
    List.getElem?_eq_getElem h1, Option.getD_some]
  exact congrArg₂ (fun x y => [x, y]) (append_low _ _) (append_high _ _)

@[simp] theorem slice_length (b : Bytes) (i n : Nat) : (slice b i n).length = min n (b.length - i) := by
  simp [slice]

/-- A range inside a suffix. -/
theorem slice_append_right (a b : Bytes) (i n k : Nat) (h : a.length = k) :
    slice (a ++ b) (k + i) n = slice b i n := by
  subst h
  have : List.drop (a.length + i) a = [] := List.drop_eq_nil_of_le (by omega)
  simp [slice, List.drop_append, this]

/-- A range of a dropped list. -/
theorem slice_drop (b : Bytes) (i j n : Nat) : slice (b.drop i) j n = slice b (i + j) n := by
  simp [slice, List.drop_drop]

/-- Reading in a dropped list. -/
theorem rd16_drop (b : Bytes) (i j : Nat) : rd16 (b.drop i) j = rd16 b (i + j) := by
  simp [rd16, List.getD_eq_getElem?_getD, List.getElem?_drop, Nat.add_assoc]

theorem take_drop_eq_slice (b : Bytes) (i n : Nat) : (b.drop i).take n = slice b i n := rfl

namespace Cfg

variable (c : Cfg)

@[simp] theorem hdrGen_length (dl : Half) (seq : Byte) : (c.hdrGen dl seq).length = 5 := rfl

@[simp] theorem framePre_length (id dl : Half) (seq : Byte) (p : Bytes) :
    (c.framePre id dl seq p).length = 7 + p.length := by
  simp [framePre]; omega

@[simp] theorem frmGen_length (pre : Bytes) : (c.frmGen pre).length = pre.length + 2 := by
  simp [frmGen]

@[simp] theorem frameBytes_length (id : Half) (f : WireFrame) :
    (c.frameBytes id f).length = 9 + f.payload.length := by
  simp [frameBytes]; omega

@[simp] theorem uiFrame_length (sub sender : Half) (body : Bytes) :
    (c.uiFrame sub sender body).length = 15 + body.length := by
  simp [uiFrame]; omega

/-- A frame with right checksums is the frame whose trailer is the checksum. -/
theorem framed_eq (id dl : Half) (seq : Byte) (p : Bytes) :
    c.framed id dl seq p =
      c.frameBytes id ⟨dl, seq, p, c.crc16 (c.framePre id dl seq p)⟩ := rfl

/-- The frame check of a frame's bytes compares its trailer with the checksum of the rest. -/
theorem frmChk_frameBytes (id : Half) (f : WireFrame) :
    c.frmChk (c.frameBytes id f) =
      (c.crc16 (c.framePre id f.dataLength f.seq f.payload) == f.trailer) := by
  have hl : (c.frameBytes id f).length - 2 =
      (c.framePre id f.dataLength f.seq f.payload).length := by simp; omega
  unfold frmChk
  rw [hl]
  have h1 : (c.frameBytes id f).take (c.framePre id f.dataLength f.seq f.payload).length =
      c.framePre id f.dataLength f.seq f.payload := by simp [frameBytes]
  have h2 : rd16 (c.frameBytes id f) (c.framePre id f.dataLength f.seq f.payload).length =
      f.trailer := by
    have := rd16_append_le16 (c.framePre id f.dataLength f.seq f.payload) [] f.trailer _ rfl
    simpa [frameBytes] using this
  rw [h1, h2]

variable {c}

/-- A row found by its id is in the table and has that id. -/
theorem lookup_some {id : Half} {r : CmdRow} (h : c.lookup id = some r) :
    r ∈ c.cmdTable ∧ r.id = id := by
  unfold lookup at h
  exact ⟨List.mem_of_find?_eq_some h, by simpa using List.find?_some h⟩

/-- A row found by its destination is in the table and has that destination. -/
theorem rowOf_some {k : Field} {r : CmdRow} (h : c.rowOf k = some r) :
    r ∈ c.cmdTable ∧ r.field = k := by
  unfold rowOf at h
  exact ⟨List.mem_of_find?_eq_some h, by simpa using List.find?_some h⟩

/-- In a list without repeated keys, a row is the first with its key. -/
theorem find?_of_nodup {α : Type} [DecidableEq α] (g : CmdRow → α) :
    ∀ {l : List CmdRow}, (l.map g).Nodup → ∀ {r}, r ∈ l →
      l.find? (fun x => g x == g r) = some r
  | [], _, _, h => by simp at h
  | a :: l, hn, r, h => by
    simp only [List.map_cons, List.nodup_cons] at hn
    by_cases ha : g a = g r
    · rcases List.mem_cons.mp h with rfl | hr
      · simp
      · exact absurd (ha ▸ List.mem_map_of_mem hr) hn.1
    · have hr : r ∈ l := by
        rcases List.mem_cons.mp h with rfl | hr
        · exact absurd rfl ha
        · exact hr
      simp [ha, find?_of_nodup g hn.2 hr]

/-- Ids are pairwise distinct: a row of the table is the one its id finds. -/
theorem lookup_of_mem (h : c.WF) {r : CmdRow} (hr : r ∈ c.cmdTable) : c.lookup r.id = some r :=
  find?_of_nodup CmdRow.id h.1 hr

/-- Destinations are pairwise distinct: a row of the table is the one its destination finds. -/
theorem rowOf_of_mem (h : c.WF) {r : CmdRow} (hr : r ∈ c.cmdTable) : c.rowOf r.field = some r :=
  find?_of_nodup CmdRow.field h.2.1 hr

/-- A variant has a register exactly when it has a row, and the register's place is the row's. -/
theorem regOf_some {k : Field} {r : CmdRow} (h : c.rowOf k = some r) :
    ∃ reg, c.regOf k = some reg ∧ c.cmdTable[reg]? = some r := by
  unfold rowOf at h
  unfold regOf
  generalize c.cmdTable = l at h ⊢
  induction l with
  | nil => simp at h
  | cons a l ih =>
    by_cases ha : a.field = k
    · simp [ha] at h
      subst h
      exact ⟨0, by simp [List.findIdx?_cons, ha], by simp⟩
    · simp [ha] at h
      obtain ⟨reg, h1, h2⟩ := ih h
      exact ⟨reg + 1, by simp [List.findIdx?_cons, ha, h1], by simpa using h2⟩

/-- A register's number is within the table, and the row there has that destination. -/
theorem regOf_row {k : Field} {reg : Nat} (h : c.regOf k = some reg) :
    ∃ r, c.cmdTable[reg]? = some r ∧ r.field = k := by
  obtain ⟨hlt, hr, -⟩ := List.findIdx?_eq_some_iff_getElem.mp h
  exact ⟨_, List.getElem?_eq_getElem hlt, by simpa using hr⟩

end Cfg

end Sys2Proof
end

