-- ==== Sys2Proof/Laws/State.lean ====
section
/-! SUPPORT. One lemma for each field and each named update of the state: what the update writes, and that
it leaves the other fields. No later proof unfolds an update. -/

namespace Sys2Proof.Machine.State

variable (s : State)

@[simp] theorem answer_cfg (r : Result) : (s.answer r).cfg = s.cfg := rfl
@[simp] theorem answer_T (r : Result) : (s.answer r).T = s.T := rfl
@[simp] theorem answer_status (r : Result) : (s.answer r).status = s.status := rfl
@[simp] theorem answer_dropcnt (r : Result) : (s.answer r).dropcnt = s.dropcnt := rfl
@[simp] theorem answer_gq (r : Result) : (s.answer r).gq = s.gq := rfl
@[simp] theorem answer_lq (r : Result) : (s.answer r).lq = s.lq := rfl
@[simp] theorem answer_dq (r : Result) : (s.answer r).dq = s.dq := rfl
@[simp] theorem answer_txb (r : Result) : (s.answer r).txb = s.txb := rfl
@[simp] theorem answer_activity (r : Result) : (s.answer r).activity = s.activity := rfl
@[simp] theorem answer_result (r : Result) : (s.answer r).result = r := rfl
@[simp] theorem answer_inputs (r : Result) : (s.answer r).inputs = s.inputs := rfl
@[simp] theorem answer_env (r : Result) : (s.answer r).env = s.env := rfl
@[simp] theorem answer_fresh (r : Result) : (s.answer r).fresh = s.fresh := rfl

@[simp] theorem finish_cfg (r : Result) : (s.finish r).cfg = s.cfg := rfl
@[simp] theorem finish_T (r : Result) : (s.finish r).T = s.T := rfl
@[simp] theorem finish_status (r : Result) : (s.finish r).status = s.status := rfl
@[simp] theorem finish_dropcnt (r : Result) : (s.finish r).dropcnt = s.dropcnt := rfl
@[simp] theorem finish_gq (r : Result) : (s.finish r).gq = s.gq := rfl
@[simp] theorem finish_lq (r : Result) : (s.finish r).lq = s.lq := rfl
@[simp] theorem finish_dq (r : Result) : (s.finish r).dq = s.dq := rfl
@[simp] theorem finish_txb (r : Result) : (s.finish r).txb = s.txb := rfl
@[simp] theorem finish_activity (r : Result) : (s.finish r).activity = .idle := rfl
@[simp] theorem finish_result (r : Result) : (s.finish r).result = r := rfl
@[simp] theorem finish_inputs (r : Result) : (s.finish r).inputs = s.inputs := rfl
@[simp] theorem finish_env (r : Result) : (s.finish r).env = s.env := rfl
@[simp] theorem finish_fresh (r : Result) : (s.finish r).fresh = s.fresh := rfl

@[simp] theorem setStatus_cfg (v : Status) : (s.setStatus v).cfg = s.cfg := rfl
@[simp] theorem setStatus_T (v : Status) : (s.setStatus v).T = s.T := rfl
@[simp] theorem setStatus_status (v : Status) : (s.setStatus v).status = v := rfl
@[simp] theorem setStatus_dropcnt (v : Status) : (s.setStatus v).dropcnt = s.dropcnt := rfl
@[simp] theorem setStatus_gq (v : Status) : (s.setStatus v).gq = s.gq := rfl
@[simp] theorem setStatus_lq (v : Status) : (s.setStatus v).lq = s.lq := rfl
@[simp] theorem setStatus_dq (v : Status) : (s.setStatus v).dq = s.dq := rfl
@[simp] theorem setStatus_txb (v : Status) : (s.setStatus v).txb = s.txb := rfl
@[simp] theorem setStatus_activity (v : Status) : (s.setStatus v).activity = s.activity := rfl
@[simp] theorem setStatus_result (v : Status) : (s.setStatus v).result = s.result := rfl
@[simp] theorem setStatus_inputs (v : Status) : (s.setStatus v).inputs = s.inputs := rfl
@[simp] theorem setStatus_env (v : Status) : (s.setStatus v).env = s.env := rfl
@[simp] theorem setStatus_fresh (v : Status) : (s.setStatus v).fresh = s.fresh := rfl

@[simp] theorem countDrop_cfg : (s.countDrop).cfg = s.cfg := rfl
@[simp] theorem countDrop_T : (s.countDrop).T = s.T := rfl
@[simp] theorem countDrop_status : (s.countDrop).status = s.status := rfl
@[simp] theorem countDrop_dropcnt : (s.countDrop).dropcnt = dropNext s.cfg s.dropcnt := rfl
@[simp] theorem countDrop_gq : (s.countDrop).gq = s.gq := rfl
@[simp] theorem countDrop_lq : (s.countDrop).lq = s.lq := rfl
@[simp] theorem countDrop_dq : (s.countDrop).dq = s.dq := rfl
@[simp] theorem countDrop_txb : (s.countDrop).txb = s.txb := rfl
@[simp] theorem countDrop_activity : (s.countDrop).activity = s.activity := rfl
@[simp] theorem countDrop_result : (s.countDrop).result = s.result := rfl
@[simp] theorem countDrop_inputs : (s.countDrop).inputs = s.inputs := rfl
@[simp] theorem countDrop_env : (s.countDrop).env = s.env := rfl
@[simp] theorem countDrop_fresh : (s.countDrop).fresh = s.fresh := rfl

@[simp] theorem commit_cfg (k : Nat) (p : Bytes) : (s.commit k p).cfg = s.cfg := rfl
@[simp] theorem commit_T (k : Nat) (p : Bytes) : (s.commit k p).T = s.T.set k p := rfl
@[simp] theorem commit_status (k : Nat) (p : Bytes) : (s.commit k p).status = s.status := rfl
@[simp] theorem commit_dropcnt (k : Nat) (p : Bytes) : (s.commit k p).dropcnt = s.dropcnt := rfl
@[simp] theorem commit_gq (k : Nat) (p : Bytes) : (s.commit k p).gq = s.gq := rfl
@[simp] theorem commit_lq (k : Nat) (p : Bytes) : (s.commit k p).lq = s.lq := rfl
@[simp] theorem commit_dq (k : Nat) (p : Bytes) : (s.commit k p).dq = s.dq := rfl
@[simp] theorem commit_txb (k : Nat) (p : Bytes) : (s.commit k p).txb = s.txb := rfl
@[simp] theorem commit_activity (k : Nat) (p : Bytes) : (s.commit k p).activity = s.activity := rfl
@[simp] theorem commit_result (k : Nat) (p : Bytes) : (s.commit k p).result = s.result := rfl
@[simp] theorem commit_inputs (k : Nat) (p : Bytes) : (s.commit k p).inputs = s.inputs := rfl
@[simp] theorem commit_env (k : Nat) (p : Bytes) : (s.commit k p).env = s.env := rfl
@[simp] theorem commit_fresh (k : Nat) (p : Bytes) : (s.commit k p).fresh = s.fresh := rfl

@[simp] theorem advance_cfg (n : Nat) : (s.advance n).cfg = s.cfg := rfl
@[simp] theorem advance_T (n : Nat) : (s.advance n).T = s.T := rfl
@[simp] theorem advance_status (n : Nat) : (s.advance n).status = s.status := rfl
@[simp] theorem advance_dropcnt (n : Nat) : (s.advance n).dropcnt = s.dropcnt := rfl
@[simp] theorem advance_gq (n : Nat) : (s.advance n).gq = s.gq := rfl
@[simp] theorem advance_lq (n : Nat) : (s.advance n).lq = s.lq := rfl
@[simp] theorem advance_dq (n : Nat) : (s.advance n).dq = s.dq := rfl
@[simp] theorem advance_txb (n : Nat) : (s.advance n).txb = s.txb := rfl
@[simp] theorem advance_result (n : Nat) : (s.advance n).result = s.result := rfl
@[simp] theorem advance_inputs (n : Nat) : (s.advance n).inputs = s.inputs := rfl
@[simp] theorem advance_env (n : Nat) : (s.advance n).env = s.env := rfl
@[simp] theorem advance_fresh (n : Nat) : (s.advance n).fresh = s.fresh := rfl

@[simp] theorem txWrite_cfg (b : Bytes) : (s.txWrite b).cfg = s.cfg := rfl
@[simp] theorem txWrite_T (b : Bytes) : (s.txWrite b).T = s.T := rfl
@[simp] theorem txWrite_status (b : Bytes) : (s.txWrite b).status = s.status := rfl
@[simp] theorem txWrite_dropcnt (b : Bytes) : (s.txWrite b).dropcnt = s.dropcnt := rfl
@[simp] theorem txWrite_gq (b : Bytes) : (s.txWrite b).gq = s.gq := rfl
@[simp] theorem txWrite_lq (b : Bytes) : (s.txWrite b).lq = s.lq := rfl
@[simp] theorem txWrite_dq (b : Bytes) : (s.txWrite b).dq = s.dq := rfl
@[simp] theorem txWrite_txb (b : Bytes) : (s.txWrite b).txb = b := rfl
@[simp] theorem txWrite_activity (b : Bytes) : (s.txWrite b).activity = s.activity := rfl
@[simp] theorem txWrite_result (b : Bytes) : (s.txWrite b).result = s.result := rfl
@[simp] theorem txWrite_inputs (b : Bytes) : (s.txWrite b).inputs = s.inputs := rfl
@[simp] theorem txWrite_env (b : Bytes) : (s.txWrite b).env = s.env := rfl
@[simp] theorem txWrite_fresh (b : Bytes) : (s.txWrite b).fresh = s.fresh := rfl

/-- `advance` moves the cursor of a scan. -/
theorem advance_activity_scanning (n : Nat) (rx : Bytes) (cur : Nat)
    (h : s.activity = .scanning rx cur) : (s.advance n).activity = .scanning rx (cur + n) := by
  simp [advance, h]

/-- `advance` outside a scan changes nothing. -/
theorem advance_idle (n : Nat) (h : s.activity = .idle) : s.advance n = s := by
  cases s; simp_all [advance]

@[simp] theorem queue_graphics : s.queue .graphics = s.gq := rfl
@[simp] theorem queue_labels : s.queue .labels = s.lq := rfl
@[simp] theorem queue_deletes : s.queue .deletes = s.dq := rfl

@[simp] theorem setQueue_cfg (q : Queue) (es : List Bytes) : (s.setQueue q es).cfg = s.cfg := by
  cases q <;> rfl
@[simp] theorem setQueue_T (q : Queue) (es : List Bytes) : (s.setQueue q es).T = s.T := by
  cases q <;> rfl
@[simp] theorem setQueue_status (q : Queue) (es : List Bytes) : (s.setQueue q es).status = s.status := by
  cases q <;> rfl
@[simp] theorem setQueue_dropcnt (q : Queue) (es : List Bytes) : (s.setQueue q es).dropcnt = s.dropcnt := by
  cases q <;> rfl
@[simp] theorem setQueue_txb (q : Queue) (es : List Bytes) : (s.setQueue q es).txb = s.txb := by
  cases q <;> rfl
@[simp] theorem setQueue_activity (q : Queue) (es : List Bytes) : (s.setQueue q es).activity = s.activity := by
  cases q <;> rfl
@[simp] theorem setQueue_result (q : Queue) (es : List Bytes) : (s.setQueue q es).result = s.result := by
  cases q <;> rfl
@[simp] theorem setQueue_inputs (q : Queue) (es : List Bytes) : (s.setQueue q es).inputs = s.inputs := by
  cases q <;> rfl
@[simp] theorem setQueue_env (q : Queue) (es : List Bytes) : (s.setQueue q es).env = s.env := by
  cases q <;> rfl
@[simp] theorem setQueue_fresh (q : Queue) (es : List Bytes) : (s.setQueue q es).fresh = s.fresh := by
  cases q <;> rfl

/-- A queue's new elements are those written; the other queues stand (42_staging_queue.md R198). -/
@[simp] theorem queue_setQueue (q q' : Queue) (es : List Bytes) :
    (s.setQueue q es).queue q' = if q' = q then es else s.queue q' := by
  cases q <;> cases q' <;> rfl

@[simp] theorem answer_queue (r : Result) (q : Queue) : (s.answer r).queue q = s.queue q := by
  cases q <;> rfl
@[simp] theorem finish_queue (r : Result) (q : Queue) : (s.finish r).queue q = s.queue q := by
  cases q <;> rfl
@[simp] theorem setStatus_queue (v : Status) (q : Queue) : (s.setStatus v).queue q = s.queue q := by
  cases q <;> rfl
@[simp] theorem countDrop_queue (q : Queue) : (s.countDrop).queue q = s.queue q := by
  cases q <;> rfl
@[simp] theorem commit_queue (k : Nat) (p : Bytes) (q : Queue) : (s.commit k p).queue q = s.queue q := by
  cases q <;> rfl
@[simp] theorem advance_queue (n : Nat) (q : Queue) : (s.advance n).queue q = s.queue q := by
  cases q <;> rfl
@[simp] theorem txWrite_queue (b : Bytes) (q : Queue) : (s.txWrite b).queue q = s.queue q := by
  cases q <;> rfl

end Sys2Proof.Machine.State
end

