-- ==== Sys2Proof/Laws/Ops.lean ====
section
/-! SUPPORT. One lemma for each shared operation, saying once everything it can do. -/

namespace Sys2Proof.Machine

open Sys2Proof

/-- The test of the constraints is the constraints. -/
theorem wf_of {c : Cfg} (h : c.WF) : c.wf = true := decide_eq_true h

/-- What a step does under a configuration that meets R5, by what the block is inside of. -/
theorem step_of_wf (s : State) (h : s.cfg.WF) : step s = runFetched (fetchHere s) := by
  simp [step, fetch, wf_of h]

@[simp] theorem runFetched_run (i : Instr) (s : State) : runFetched (.run i s) = exec i s := rfl
@[simp] theorem runFetched_agent (a : AgentOp) (s : State) :
    runFetched (.agent a s) = agent a s := rfl
@[simp] theorem runFetched_moved (s : State) : runFetched (.moved s) = .next s := rfl
@[simp] theorem runFetched_refuse (r : Refusal) : runFetched (.refuse r) = .refused r := rfl

/-- A step that answers found a configuration that meets R5. -/
theorem wf_of_step {s t : State} (h : step s = .next t) : s.cfg.WF := by
  by_cases hw : s.cfg.wf = true
  · exact of_decide_eq_true hw
  · simp [step, fetch, hw] at h

/-- Everything an enqueue can do to a queue. -/
theorem State.enqueue_queue (q q' : Queue) (e : Bytes) (s : State) :
    (s.enqueue q e).queue q' =
      if q' = q ∧ (s.queue q).length ≠ q.cap s.cfg then s.queue q ++ [e] else s.queue q' := by
  by_cases h : (s.queue q).length = q.cap s.cfg <;> by_cases hq : q' = q <;>
    simp [State.enqueue, h, hq]

/-- An enqueue writes a queue and nothing else. -/
theorem State.enqueue_eq (q : Queue) (e : Bytes) (s : State) :
    s.enqueue q e = s ∨ s.enqueue q e = s.setQueue q (s.queue q ++ [e]) := by
  unfold State.enqueue; split <;> simp

/-- Everything a push can answer (42_staging_queue.md R191 to R193). -/
theorem push_cases (q : Queue) (e : Bytes) (s : State) :
    (e.length ≠ q.elementBytes s.cfg ∧ push q e s = .refused (.operandSize e.length)) ∨
    (e.length = q.elementBytes s.cfg ∧ (s.queue q).length = q.cap s.cfg ∧
      push q e s = .next (s.answer .queueFull)) ∨
    (e.length = q.elementBytes s.cfg ∧ (s.queue q).length ≠ q.cap s.cfg ∧
      push q e s = .next ((s.setQueue q (s.queue q ++ [e])).answer .ok)) := by
  by_cases h : e.length = q.elementBytes s.cfg <;>
    by_cases hf : (s.queue q).length = q.cap s.cfg <;> simp [push, State.enqueue, h, hf]

/-- Everything a pop can answer (42_staging_queue.md R194 to R196). -/
theorem pop_cases (q : Queue) (s : State) :
    (s.queue q = [] ∧ pop q s = .next (s.answer .noElement)) ∨
    (∃ e rest, s.queue q = e :: rest ∧
      pop q s = .next ((s.setQueue q rest).answer (.element e))) := by
  unfold pop
  cases h : s.queue q with
  | nil => exact .inl ⟨rfl, rfl⟩
  | cons e rest => exact .inr ⟨e, rest, rfl, rfl⟩

/-- Everything the frame operation can answer (41_demux_decode.md R151 to R153). -/
theorem wireFrame_cases (k : Field) (f : WireFrame) (s : State) :
    (∃ row reg, s.cfg.rowOf k = some row ∧ s.cfg.regOf k = some reg ∧
      f.payload.length = row.size ∧
      ((s.cfg.frmChk (s.cfg.frameBytes row.id f) = true ∧
          wireFrame k f s = .next ((s.commit reg f.payload).advance (span row.size))) ∨
       (s.cfg.frmChk (s.cfg.frameBytes row.id f) = false ∧
          wireFrame k f s = .next (s.countDrop.advance (span row.size))))) ∨
    ((s.cfg.rowOf k = none ∨ s.cfg.regOf k = none) ∧
      wireFrame k f s = .refused (.noCommandRow k)) ∨
    (∃ row, s.cfg.rowOf k = some row ∧ f.payload.length ≠ row.size ∧
      wireFrame k f s = .refused (.operandSize f.payload.length)) := by
  unfold wireFrame
  cases h1 : s.cfg.rowOf k with
  | none => simp
  | some row =>
    cases h2 : s.cfg.regOf k with
    | none => simp
    | some reg =>
      by_cases hl : f.payload.length = row.size
      · by_cases hc : s.cfg.frmChk (s.cfg.frameBytes row.id f) = true
        · exact .inl ⟨row, reg, rfl, rfl, hl, .inl ⟨hc, by simp [hl, hc]⟩⟩
        · exact .inl ⟨row, reg, rfl, rfl, hl, .inr ⟨by simpa using hc, by simp [hl, hc]⟩⟩
      · exact .inr (.inr ⟨row, rfl, hl, by simp [hl]⟩)

/-- The meaning that a scan runs for a variant is the frame operation with that variant's destination. -/
theorem runWire_eq (k : Field) (f : WireFrame) (s : State) : runWire k f s = wireFrame k f s := by
  cases k <;> rfl

/-- `exec` of the wire instruction of a variant is the meaning a scan runs. -/
theorem exec_ofField (k : Field) (f : WireFrame) (s : State) :
    exec (Instr.ofField k f) s = runWire k f s := by
  cases k <;> rfl

/-- `exec` of the outbound frame of a sub-command is the meaning `PACK` runs. -/
theorem exec_ofUi (k : UiKind) (sender : Half) (body : Bytes) (s : State) :
    exec (Instr.ofUi k sender body) s = runUi k sender body s := by
  cases k <;> rfl

/-- The state after an outbound frame: the buffer and the result hold the frame, the operation has ended,
and only the queue the frame draws on may have changed (43_packet_framer.md R235). -/
theorem State.emit_eq (k : UiKind) (sender : Half) (body : Bytes) (s : State) :
    s.emit k sender body =
      { s with
        txb := s.cfg.uiFrame (s.cfg.subId k) sender body
        result := .frame (s.cfg.uiFrame (s.cfg.subId k) sender body)
        activity := .idle } := rfl

/-- What taking framed elements can do: drop them from their queue, or nothing. -/
theorem State.dequeueFramed_cases (q : Queue) (m : Nat) (framed body : Bytes) (s : State) :
    (s.queue q ≠ [] ∧ body = framed ∧
      s.dequeueFramed q m framed body = s.setQueue q ((s.queue q).drop m)) ∨
    (¬ (s.queue q ≠ [] ∧ body = framed) ∧ s.dequeueFramed q m framed body = s) := by
  unfold State.dequeueFramed
  by_cases h : s.queue q ≠ [] ∧ body = framed
  · exact .inl ⟨h.1, h.2, by rw [if_pos h]⟩
  · exact .inr ⟨h, by rw [if_neg h]⟩

/-- Every outbound frame completes. -/
theorem runUi_next (k : UiKind) (sender : Half) (body : Bytes) (s : State) :
    ∃ q m framed, runUi k sender body s =
      .next ((s.dequeueFramed q m framed body).emit k sender body) := by
  cases k <;> exact ⟨_, _, _, rfl⟩

/-- What `PACK` selects (43_packet_framer.md R221), queue by queue. -/
theorem select_cases (s : State) :
    (∃ d ds, s.dq = d :: ds ∧ select s = some (.delete, d)) ∨
    (s.dq = [] ∧ s.gq ≠ [] ∧
      select s = some (drawKind (batchCap s.gq.length),
        batchBody s.cfg (batchCap s.gq.length) s.gq)) ∨
    (s.dq = [] ∧ s.gq = [] ∧ ∃ l ls, s.lq = l :: ls ∧ select s = some (.string, l)) ∨
    (s.dq = [] ∧ s.gq = [] ∧ s.lq = [] ∧ select s = none) := by
  unfold select
  cases hd : s.dq with
  | cons d ds => exact .inl ⟨d, ds, rfl, rfl⟩
  | nil =>
    cases hg : s.gq with
    | cons g gs => exact .inr (.inl ⟨rfl, by simp, rfl⟩)
    | nil =>
      cases hl : s.lq with
      | cons l ls => exact .inr (.inr (.inl ⟨rfl, rfl, l, ls, rfl, rfl⟩))
      | nil => exact .inr (.inr (.inr ⟨rfl, rfl, rfl, rfl⟩))

/-- Everything one turn of a scan finds (41_demux_decode.md R140), by what the decoder reads. -/
theorem scanTurn_eq (rest : Bytes) (s : State) :
    scanTurn rest s =
      match decodeWire s.cfg rest with
      | .exhausted => .moved (s.finish .ok)
      | .skip => .moved (s.advance 1)
      | .headerCut => .moved (s.finish .ok)
      | .headerBad => .moved (s.advance 1)
      | .idCut => .moved (s.finish .ok)
      | .unknown dl seq id => .unknown dl seq id
      | .frameCut => .moved (s.countDrop.finish .ok)
      | .frame row f => .frame row.field f := rfl

/-- A staged element changes its queue, if at all, and draws one free value. -/
theorem stage_eq (op : GraphicOp) (q : Queue) (sh : Shape) (s : State) :
    ∃ es, stage op q sh s = { s.setQueue q es with fresh := s.fresh + 1 } ∧
      (es = s.queue q ∨
        es = s.queue q ++ [elementOf s.fresh s.env.screen sh op (q.elementBytes s.cfg)]) := by
  unfold stage State.enqueue
  split
  · refine ⟨s.queue q, ?_, .inl rfl⟩
    cases q <;> rfl
  · exact ⟨_, rfl, .inr rfl⟩

end Sys2Proof.Machine
end

