-- ==== Sys2Proof/Laws/Environment.lean ====
section
/-! SUPPORT. The agents around the block: staged elements have their queue's size, and staging touches the
graphic and label queues and the free value counter, nothing else. -/

namespace Sys2Proof.Machine

open Sys2Proof

@[simp] theorem elementOf_length (draw : Nat) (screen : Option Screen) (sh : Shape) (op : GraphicOp)
    (n : Nat) : (elementOf draw screen sh op n).length = n := by
  simp [elementOf]

@[simp] theorem stageAll_nil (op : GraphicOp) (s : State) : stageAll op [] s = s := rfl

@[simp] theorem stageAll_cons (op : GraphicOp) (e : Queue × Shape) (es : List (Queue × Shape))
    (s : State) : stageAll op (e :: es) s = stageAll op es (stage op e.1 e.2 s) := rfl

/-- No phase stages anything but graphics (44_environment.md R263 to R266). -/
theorem phaseBody_graphics (phase : BitVec 3) (m : ModeSnapshot) :
    ∀ e ∈ phaseBody phase m, e.1 = .graphics := by
  unfold phaseBody highlight
  split <;> simp
  aesop

/-- What a sequence of stagings of graphics and labels leaves as it is. -/
theorem stageAll_frame (op : GraphicOp) (es : List (Queue × Shape)) (s : State)
    (h : ∀ e ∈ es, e.1 ≠ .deletes) :
    ∃ gq lq fresh, stageAll op es s = { s with gq := gq, lq := lq, fresh := fresh } := by
  induction es generalizing s with
  | nil => exact ⟨s.gq, s.lq, s.fresh, rfl⟩
  | cons e es ih =>
    obtain ⟨es', he, -⟩ := stage_eq op e.1 e.2 s
    obtain ⟨gq, lq, fresh, ht⟩ := ih (stage op e.1 e.2 s) (fun x hx => h x (by simp [hx]))
    rw [stageAll_cons, ht, he]
    cases hq : e.1 with
    | graphics => exact ⟨gq, lq, fresh, rfl⟩
    | labels => exact ⟨gq, lq, fresh, rfl⟩
    | deletes => exact absurd hq (h e (by simp))

end Sys2Proof.Machine
end

