-- ==== Sys2Proof/Laws/Wire.lean ====
section
/-! SUPPORT. What the wire decoder reads, forward (from the bytes PF or a sender writes) and backward (from
what was read). -/

namespace Sys2Proof

namespace Cfg

variable {c : Cfg}

/-- A header PF generates passes `HDRCHK` (40_crc_header_validator.md R123). -/
theorem hdrChk_hdrGen (dl : Half) (seq : Byte) : c.hdrChk (c.hdrGen dl seq) = true := by
  simp [hdrChk, hdrGen, le16]

/-- Five bytes that pass `HDRCHK` are the header generated from their fields. -/
theorem eq_hdrGen_of_hdrChk {h : Bytes} (hc : c.hdrChk h = true) :
    h = c.hdrGen (rd16 h 1) (h.getD 3 0) := by
  simp only [hdrChk, Bool.and_eq_true, decide_eq_true_eq, beq_iff_eq] at hc
  obtain ⟨⟨hl, h0⟩, h8⟩ := hc
  match h, hl with
  | [b0, b1, b2, b3, b4], _ =>
    simp at h0 h8
    simp only [hdrGen, le16, rd16, List.getD_eq_getElem?_getD]
    simp [append_low, append_high, ← h0, h8]

end Cfg

/-- The decoder's answer where the header is valid and the id is there. -/
theorem decodeWire_of_hdrChk {c : Cfg} {b : Bytes} (hc : c.hdrChk (b.take 5) = true)
    (hl : 7 ≤ b.length) :
    decodeWire c b =
      match c.lookup (rd16 b 5) with
      | none => .unknown (rd16 b 1) (b.getD 3 0) (rd16 b 5)
      | some row =>
        if b.length < span row.size then .frameCut else .frame row (wireFields b row.size) := by
  match b, hl with
  | b0 :: bs, hl =>
    have h0 : b0 = c.sof := by
      have h := hc
      simp only [Cfg.hdrChk, Bool.and_eq_true, beq_iff_eq] at h
      simpa using h.1.2
    unfold decodeWire
    simp only []
    exact (if_neg (by simp [h0])).trans ((if_neg (by omega)).trans
      ((if_neg (by rw [hc]; decide)).trans (if_neg (by omega))))

/-- The decoder reads the frame a sender wrote, whatever follows it. -/
theorem decodeWire_frameBytes {c : Cfg} {id : Half} {row : CmdRow} {f : WireFrame} (rest : Bytes)
    (hr : c.lookup id = some row) (hp : f.payload.length = row.size) :
    decodeWire c (c.frameBytes id f ++ rest) = .frame row f := by
  have hb : c.frameBytes id f ++ rest =
      c.hdrGen f.dataLength f.seq ++ (le16 id ++ (f.payload ++ (le16 f.trailer ++ rest))) := by
    simp [Cfg.frameBytes, Cfg.framePre]
  have hlen : (c.frameBytes id f ++ rest).length = 9 + row.size + rest.length := by simp [hp]
  have htake : (c.frameBytes id f ++ rest).take 5 = c.hdrGen f.dataLength f.seq := by
    rw [hb]; exact List.take_left' rfl
  have hid : rd16 (c.frameBytes id f ++ rest) 5 = id := by
    rw [hb]; exact rd16_append_le16 _ _ _ 5 rfl
  have hfields : wireFields (c.frameBytes id f ++ rest) row.size = f := by
    rw [hb, wireFields]
    have h1 : rd16 (c.hdrGen f.dataLength f.seq ++
        (le16 id ++ (f.payload ++ (le16 f.trailer ++ rest)))) 1 = f.dataLength :=
      rd16_append_le16 [c.sof] _ _ 1 rfl
    have h2 : slice (c.hdrGen f.dataLength f.seq ++
        (le16 id ++ (f.payload ++ (le16 f.trailer ++ rest)))) 7 row.size = f.payload := by
      rw [← List.append_assoc, show (7 : Nat) = 7 + 0 from rfl, slice_append_right _ _ 0 _ 7 rfl,
        ← hp]
      simp [slice]
    have h3 : rd16 (c.hdrGen f.dataLength f.seq ++
        (le16 id ++ (f.payload ++ (le16 f.trailer ++ rest)))) (7 + row.size) = f.trailer := by
      rw [← List.append_assoc, ← List.append_assoc]
      exact rd16_append_le16 _ _ _ _ (by simp [hp]; omega)
    rw [h1, h2, h3]
    simp [Cfg.hdrGen, le16]
  rw [decodeWire_of_hdrChk (by rw [htake]; exact Cfg.hdrChk_hdrGen _ _) (by omega), hid, hr]
  simp only []
  rw [if_neg (by unfold span; omega), hfields]

/-- The decoder reads an unknown command id, whatever follows it. -/
theorem decodeWire_unknown {c : Cfg} {id : Half} (dl : Half) (seq : Byte) (rest : Bytes)
    (hr : c.lookup id = none) :
    decodeWire c (c.hdrGen dl seq ++ le16 id ++ rest) = .unknown dl seq id := by
  have hb : c.hdrGen dl seq ++ le16 id ++ rest = c.hdrGen dl seq ++ (le16 id ++ rest) := by simp
  have hlen : (c.hdrGen dl seq ++ le16 id ++ rest).length = 7 + rest.length := by simp; omega
  have htake : (c.hdrGen dl seq ++ le16 id ++ rest).take 5 = c.hdrGen dl seq := by
    rw [hb]; exact List.take_left' rfl
  have hid : rd16 (c.hdrGen dl seq ++ le16 id ++ rest) 5 = id := by
    rw [hb]; exact rd16_append_le16 _ _ _ 5 rfl
  have hdl : rd16 (c.hdrGen dl seq ++ le16 id ++ rest) 1 = dl :=
    rd16_append_le16 [c.sof] _ _ 1 rfl
  have hseq : (c.hdrGen dl seq ++ le16 id ++ rest).getD 3 0 = seq := by
    simp [Cfg.hdrGen, le16]
  rw [decodeWire_of_hdrChk (by rw [htake]; exact Cfg.hdrChk_hdrGen _ _) (by omega), hid, hr, hdl,
    hseq]

/-- A byte that is no start byte is skipped. -/
theorem decodeWire_skip {c : Cfg} {b : Byte} (rest : Bytes) (h : b ≠ c.sof) :
    decodeWire c (b :: rest) = .skip := by
  simp [decodeWire, h]

/-- What was found where a frame was read (41_demux_decode.md R145, R147, R149). -/
theorem frame_of_decodeWire {c : Cfg} {b : Bytes} {row : CmdRow} {f : WireFrame}
    (h : decodeWire c b = .frame row f) :
    c.hdrChk (b.take 5) = true ∧ c.lookup (rd16 b 5) = some row ∧ 9 + row.size ≤ b.length ∧
      f = wireFields b row.size := by
  unfold decodeWire at h
  split at h
  · simp at h
  split at h
  · simp at h
  split at h
  · simp at h
  split at h
  · simp at h
  split at h
  · simp at h
  split at h
  · simp at h
  split at h
  · simp at h
  rename_i hc _ _ _ hl hs
  simp only [WireStep.frame.injEq] at h
  obtain ⟨rfl, rfl⟩ := h
  refine ⟨by revert hc; cases c.hdrChk (List.take 5 _) <;> simp, hl, by simpa [span] using hs, rfl⟩

/-- What was found where an unknown id was read (41_demux_decode.md R148). -/
theorem unknown_of_decodeWire {c : Cfg} {b : Bytes} {dl : Half} {seq : Byte} {id : Half}
    (h : decodeWire c b = .unknown dl seq id) :
    c.hdrChk (b.take 5) = true ∧ c.lookup id = none ∧ 7 ≤ b.length ∧
      dl = rd16 b 1 ∧ seq = b.getD 3 0 ∧ id = rd16 b 5 := by
  unfold decodeWire at h
  split at h
  · simp at h
  split at h
  · simp at h
  split at h
  · simp at h
  split at h
  · simp at h
  split at h
  · simp at h
  split at h
  · rename_i hc hl _ hn
    simp only [WireStep.unknown.injEq] at h
    obtain ⟨rfl, rfl, rfl⟩ := h
    exact ⟨by revert hc; cases c.hdrChk (List.take 5 _) <;> simp, hn, by simpa using hl, rfl, rfl, rfl⟩
  split at h <;> simp at h

/-- The fields read in a buffer whose header is valid, put together again, are the bytes of the frame. -/
theorem frameBytes_wireFields {c : Cfg} {b : Bytes} {n : Nat} (hc : c.hdrChk (b.take 5) = true)
    (hl : 9 + n ≤ b.length) :
    c.frameBytes (rd16 b 5) (wireFields b n) = b.take (9 + n) := by
  have h1 : rd16 (b.take 5) 1 = rd16 b 1 := by
    conv_rhs => rw [← List.take_append_drop 5 b]
    exact (rd16_append_left _ _ 1 (by simp; omega)).symm
  have h3 : (b.take 5).getD 3 0 = b.getD 3 0 := by
    simp [List.getD_eq_getElem?_getD]
  have hh : c.hdrGen (rd16 b 1) (b.getD 3 0) = b.take 5 := by
    rw [← h1, ← h3]; exact (Cfg.eq_hdrGen_of_hdrChk hc).symm
  have hp : (slice b 7 n).length = n := by simp; omega
  unfold Cfg.frameBytes Cfg.framePre wireFields
  simp only [hh, le16_rd16 b 5 (by omega), le16_rd16 b (7 + n) (by omega)]
  simp only [slice]
  have e1 : b.take 5 ++ (b.drop 5).take 2 = b.take 7 := by
    rw [show (7 : Nat) = 5 + 2 from rfl, List.take_add]
  have e2 : b.take 7 ++ (b.drop 7).take n = b.take (7 + n) := (List.take_add).symm
  have e3 : b.take (7 + n) ++ (b.drop (7 + n)).take 2 = b.take (9 + n) := by
    rw [show 9 + n = 7 + n + 2 by omega]; exact (List.take_add).symm
  rw [e1, e2, e3]

end Sys2Proof
end

