-- ==== Sys2Proof/Laws/Framer.lean ====
section
/-! SUPPORT. The framer: the batch capacity, the length of a batch body, the sub-command ids, and one call of
a drain. -/

namespace Sys2Proof

namespace Cfg

variable {c : Cfg}

/-- Distinct sub-command ids tell the sub-commands apart. -/
theorem subId_injective (h : c.subIds.Nodup) {k k' : UiKind} (he : c.subId k = c.subId k') :
    k = k' := by
  simp [subIds] at h
  cases k <;> cases k' <;> simp_all [subId]

/-- Distinct sub-command ids are read back. -/
theorem uiKindOf_subId (h : c.subIds.Nodup) (k : UiKind) : c.uiKindOf (c.subId k) = some k := by
  have hsome : (c.uiKindOf (c.subId k)).isSome := by
    unfold uiKindOf
    rw [List.find?_isSome]
    exact ⟨k, by cases k <;> simp, by simp⟩
  obtain ⟨k', hk'⟩ := Option.isSome_iff_exists.mp hsome
  rw [hk']
  unfold uiKindOf at hk'
  exact congrArg some (subId_injective h (by simpa using List.find?_some hk'))

end Cfg

namespace Machine

/-- The table of 43_packet_framer.md R223. -/
theorem batchCap_cases (n : Nat) :
    (n ≤ 1 ∧ batchCap n = 1) ∨ (n = 2 ∧ batchCap n = 2) ∨ (3 ≤ n ∧ n ≤ 5 ∧ batchCap n = 5) ∨
    (6 ≤ n ∧ batchCap n = 7) := by
  unfold batchCap
  by_cases h1 : n ≤ 1
  · exact .inl ⟨h1, by simp [h1]⟩
  by_cases h2 : n ≤ 2
  · have hn : n = 2 := by omega
    subst hn
    exact .inr (.inl ⟨rfl, by decide⟩)
  by_cases h5 : n ≤ 5
  · have hn : n = 3 ∨ n = 4 ∨ n = 5 := by omega
    refine .inr (.inr (.inl ⟨by omega, h5, ?_⟩))
    rcases hn with rfl | rfl | rfl <;> decide
  · refine .inr (.inr (.inr ⟨by omega, ?_⟩))
    rcases Nat.lt_or_ge n 7 with h7 | h7
    · have hn : n = 6 := by omega
      subst hn
      decide
    · have hn : min n 7 = 7 := by omega
      simp [hn]

/-- A capacity of R223 is at most 7 and holds `min(n, 7)` elements. -/
theorem batchCap_bounds (n : Nat) : min n 7 ≤ batchCap n ∧ batchCap n ≤ 7 := by
  rcases batchCap_cases n with ⟨h, h'⟩ | ⟨h, h'⟩ | ⟨h, h2, h'⟩ | ⟨h, h'⟩ <;> omega

/-- A batch body has the size of R91: its slots are elements or inert slots, each `GRAPHIC_BYTES`. -/
theorem batchBody_length {c : Cfg} (hw : c.WF) (cap : Nat) {es : List Bytes}
    (h : ∀ e ∈ es, e.length = c.graphicBytes) :
    (batchBody c cap es).length = cap * c.graphicBytes := by
  have hi : c.inertSlot.length = c.graphicBytes := hw.2.2.2.2.2.2.2.1
  have flat : ∀ l : List Bytes, (∀ e ∈ l, e.length = c.graphicBytes) →
      l.flatten.length = l.length * c.graphicBytes := by
    intro l
    induction l with
    | nil => simp
    | cons a l ih =>
      intro hl
      rw [List.flatten_cons, List.length_append, List.length_cons, hl a (by simp),
        ih (fun e he => hl e (by simp [he])), Nat.add_mul]
      omega
  unfold batchBody
  rw [flat]
  · simp; left; omega
  · intro e he
    rcases List.mem_append.mp he with he | he
    · exact h e (List.mem_of_mem_take he)
    · rw [(List.mem_replicate.mp he).2, hi]

/-- Everything an outbound frame leaves: the frame in `TXB` and in the result, nothing else but the queue
it draws on. -/
theorem runUi_result {k : UiKind} {sender : Half} {body : Bytes} {s t : State}
    (h : runUi k sender body s = .next t) :
    t.result = .frame (s.cfg.uiFrame (s.cfg.subId k) sender body) ∧
    t.txb = s.cfg.uiFrame (s.cfg.subId k) sender body ∧ t.activity = .idle ∧ t.cfg = s.cfg := by
  obtain ⟨q, m, fr, he⟩ := runUi_next k sender body s
  rw [he] at h
  injection h with h
  subst h
  have hc : (s.dequeueFramed q m fr body).cfg = s.cfg := by
    rcases State.dequeueFramed_cases q m fr body s with ⟨_, _, h⟩ | ⟨_, h⟩ <;> simp [h]
  simp [State.emit, hc]

/-- One call of a drain that gives a frame. -/
theorem drain_frame {n : Nat} {sender : Half} {s t : State} {fr : Bytes}
    (h : execPack sender s = .next t) (hr : t.result = .frame fr) :
    drain sender (n + 1) s = (fr :: (drain sender n t).1, (drain sender n t).2) := by
  simp only [drain, h, hr]

end Machine

end Sys2Proof
end

