-- ==== Sys2Proof/Laws/Scan.lean ====
section
/-! SUPPORT. The scan of a receive buffer (41_demux_decode.md R140): everything one turn can do, the scan as
turns one after the other, and an induction principle for it. -/

namespace Sys2Proof.Machine

open Sys2Proof

/-- One turn of the loop of R140 at `cur` in `rx`: the state the turn leaves. -/
inductive ScanStep (rx : Bytes) (cur : Nat) (s : State) : State → Prop where
  /-- The buffer is exhausted or cut off inside a header or an id (R144, R146, R154). -/
  | ended : ScanStep rx cur s (s.finish .ok)
  /-- Noise costs one byte (R142, R143). -/
  | skipped : cur < rx.length → ScanStep rx cur s (s.advance 1)
  /-- A cut-off frame is counted (R150). -/
  | cut : ScanStep rx cur s (s.countDrop.finish .ok)
  /-- An unknown id ends the call (R148). -/
  | unknown (id : Half) : s.cfg.hdrChk (slice rx cur 5) = true → cur + 7 ≤ rx.length →
      s.cfg.lookup (rd16 rx (cur + 5)) = none → id = rd16 rx (cur + 5) →
      ScanStep rx cur s (s.finish (.errUnknownCmd id cur))
  /-- A whole frame with a right trailer is committed (R151). -/
  | committed (row : CmdRow) (reg : Nat) : s.cfg.hdrChk (slice rx cur 5) = true →
      s.cfg.lookup (rd16 rx (cur + 5)) = some row → s.cfg.regOf row.field = some reg →
      s.cfg.cmdTable[reg]? = some row → cur + 9 + row.size ≤ rx.length →
      s.cfg.frmChk (slice rx cur (9 + row.size)) = true →
      ScanStep rx cur s
        ((s.commit reg (slice rx (cur + 7) row.size)).advance (span row.size))
  /-- A whole frame with a wrong trailer is counted (R152). -/
  | dropped (row : CmdRow) : s.cfg.hdrChk (slice rx cur 5) = true →
      s.cfg.lookup (rd16 rx (cur + 5)) = some row → cur + 9 + row.size ≤ rx.length →
      s.cfg.frmChk (slice rx cur (9 + row.size)) = false →
      ScanStep rx cur s (s.countDrop.advance (span row.size))

/-- What the wire instruction read at the cursor does (R149 to R153). -/
theorem runWire_at {s : State} {rx : Bytes} {cur : Nat} {row : CmdRow} {f : WireFrame}
    (hw : s.cfg.WF) (hd : decodeWire s.cfg (rx.drop cur) = .frame row f) :
    ∃ t, runWire row.field f s = .next t ∧ ScanStep rx cur s t ∧
      ∃ reg, s.cfg.regOf row.field = some reg ∧
        t = if s.cfg.frmChk (slice rx cur (9 + row.size)) then
          (s.commit reg (slice rx (cur + 7) row.size)).advance (span row.size)
        else s.countDrop.advance (span row.size) := by
  obtain ⟨hh, hl, h9, rfl⟩ := frame_of_decodeWire hd
  obtain ⟨hm, hid⟩ := Cfg.lookup_some hl
  have hr := Cfg.rowOf_of_mem hw hm
  obtain ⟨reg, hreg, hrow⟩ := Cfg.regOf_some hr
  have hb := frameBytes_wireFields hh h9
  rw [take_drop_eq_slice] at hh hb
  rw [rd16_drop] at hl hid hb
  have hlen : cur + 9 + row.size ≤ rx.length := by simp at h9; omega
  have hp : (wireFields (rx.drop cur) row.size).payload = slice rx (cur + 7) row.size := by
    simp [wireFields, slice_drop]
  have hpl : (slice rx (cur + 7) row.size).length = row.size := by simp; omega
  have he : runWire row.field (wireFields (rx.drop cur) row.size) s = .next
      (if s.cfg.frmChk (slice rx cur (9 + row.size)) then
        (s.commit reg (slice rx (cur + 7) row.size)).advance (span row.size)
      else s.countDrop.advance (span row.size)) := by
    rw [runWire_eq]
    simp only [wireFrame, hr, hreg, hp, hpl, hid, hb]
    by_cases hc : s.cfg.frmChk (slice rx cur (9 + row.size)) = true <;> simp [hc]
  refine ⟨_, he, ?_, reg, hreg, rfl⟩
  by_cases hc : s.cfg.frmChk (slice rx cur (9 + row.size)) = true
  · rw [if_pos hc]; exact .committed row reg hh hl hreg hrow hlen hc
  · rw [if_neg hc]; exact .dropped row hh hl hlen (by simpa using hc)

/-- A step inside a scan is one turn, and says what the turn found (R140). -/
theorem step_scanning {s : State} {rx : Bytes} {cur : Nat} (hw : s.cfg.WF)
    (ha : s.activity = .scanning rx cur) :
    ∃ t, step s = .next t ∧ ScanStep rx cur s t := by
  have hs : step s = runFetched (fetchWire (rx.drop cur) s) := by
    simp [step_of_wf s hw, fetchHere, ha]
  rw [hs]
  unfold fetchWire
  rw [scanTurn_eq]
  cases hd : decodeWire s.cfg (rx.drop cur) with
  | exhausted => exact ⟨_, rfl, .ended⟩
  | skip =>
    refine ⟨_, rfl, .skipped ?_⟩
    by_contra hn
    simp [List.drop_eq_nil_of_le (by omega : rx.length ≤ cur), decodeWire] at hd
  | headerCut => exact ⟨_, rfl, .ended⟩
  | headerBad =>
    refine ⟨_, rfl, .skipped ?_⟩
    by_contra hn
    simp [List.drop_eq_nil_of_le (by omega : rx.length ≤ cur), decodeWire] at hd
  | idCut => exact ⟨_, rfl, .ended⟩
  | frameCut => exact ⟨_, rfl, .cut⟩
  | unknown dl seq id =>
    obtain ⟨hh, hl, h7, -, -, hi⟩ := unknown_of_decodeWire hd
    rw [take_drop_eq_slice] at hh
    rw [rd16_drop] at hi
    have hc : s.cur = cur := by simp [State.cur, ha]
    refine ⟨s.finish (.errUnknownCmd id cur), ?_, .unknown id hh (by simp at h7; omega) (hi ▸ hl) hi⟩
    simp [exec, execFUnknown, hc]
  | frame row f =>
    obtain ⟨t, ht, hst, -⟩ := runWire_at hw hd
    exact ⟨t, by simp [exec_ofField, ht], hst⟩

/-- A turn leaves the configuration alone. -/
theorem ScanStep.cfg_eq {rx : Bytes} {cur : Nat} {s t : State} (h : ScanStep rx cur s t) :
    t.cfg = s.cfg := by
  cases h <;> rfl

/-- A turn ends the scan, or moves its cursor forward within the buffer. -/
theorem ScanStep.activity_cases {rx : Bytes} {cur : Nat} {s t : State}
    (ha : s.activity = .scanning rx cur) (h : ScanStep rx cur s t) :
    t.activity = .idle ∨
      ∃ cur', t.activity = .scanning rx cur' ∧ cur < cur' ∧ cur' ≤ rx.length := by
  cases h with
  | ended => exact .inl rfl
  | cut => exact .inl rfl
  | unknown => exact .inl rfl
  | skipped hl => exact .inr ⟨cur + 1, by simp [State.advance, ha], by omega, by omega⟩
  | committed row reg _ _ _ _ hl =>
    exact .inr ⟨cur + span row.size, by simp [State.advance, ha, State.commit],
      by simp only [span]; omega, by simp only [span]; omega⟩
  | dropped row _ _ hl =>
    exact .inr ⟨cur + span row.size, by simp [State.advance, ha, State.countDrop],
      by simp only [span]; omega, by simp only [span]; omega⟩

/-- A scan that has ended stays as it is. -/
theorem scan_idle {s : State} (n : Nat) (h : s.activity = .idle) : scan n s = .next s := by
  cases n <;> simp [scan, h]

/-- A scan is its turns, each a step of the machine. -/
theorem scan_succ {s t : State} {rx : Bytes} {cur : Nat} (n : Nat) (hw : s.cfg.WF)
    (ha : s.activity = .scanning rx cur) (ht : step s = .next t) :
    scan (n + 1) s = scan n t := by
  have hs : step s = runFetched (fetchWire (rx.drop cur) s) := by
    simp [step_of_wf s hw, fetchHere, ha]
  rw [hs] at ht
  unfold fetchWire at ht
  simp only [scan, ha]
  cases hd : scanTurn (rx.drop cur) s with
  | moved s' =>
    simp only [hd, runFetched_moved] at ht
    injection ht with ht
    subst ht; rfl
  | frame k f =>
    simp only [hd, runFetched_run, exec_ofField] at ht
    simp only [ht]
  | unknown dl seq id =>
    simp only [hd, runFetched_run] at ht
    injection ht with ht
    subst ht
    exact (scan_idle n (by simp)).symm

/-- A scan with turns for every byte left and one more runs to its end, and what holds of its state and
stays true over each turn holds at the end. -/
theorem scan_induction (P : Nat → State → Prop) (Q : State → Prop) {rx : Bytes} :
    ∀ (n cur : Nat) (s : State), s.cfg.WF → s.activity = .scanning rx cur → rx.length < cur + n →
      cur ≤ rx.length → P cur s →
      (∀ cur s t, s.activity = .scanning rx cur → P cur s → ScanStep rx cur s t →
        (t.activity = .idle → Q t) ∧ (∀ cur', t.activity = .scanning rx cur' → P cur' t)) →
      ∃ t, scan n s = .next t ∧ t.activity = .idle ∧ Q t
  | 0, cur, s, _, _, hn, hc, _, _ => by omega
  | n + 1, cur, s, hw, ha, hn, hc, hp, step_ok => by
    obtain ⟨t, ht, hst⟩ := step_scanning hw ha
    rw [scan_succ n hw ha ht]
    have hq := step_ok cur s t ha hp hst
    rcases hst.activity_cases ha with hi | ⟨cur', hcur, hlt, hle⟩
    · exact ⟨t, scan_idle n hi, hi, hq.1 hi⟩
    · exact scan_induction P Q n cur' t (hst.cfg_eq ▸ hw) hcur (by omega) hle (hq.2 cur' hcur) step_ok

end Sys2Proof.Machine
end

