-- ==== Sys2Proof/Laws/Invariant.lean ====
section
/-! SUPPORT. Each named update of the state keeps the invariant of Safety.lean, under the bound the update
itself needs. -/

namespace Sys2Proof.Machine

open Sys2Proof

namespace State.Inv

variable {s : State}

/-- The queues' part of the invariant says nothing of the other fields. -/
theorem queues_of {t : State} (h : s.Inv) (hq : ∀ q, t.queue q = s.queue q) (hc : t.cfg = s.cfg) :
    ∀ q, t.queueWF q := by
  intro q
  have := h.queues q
  unfold State.queueWF at *
  rw [hq, hc]
  exact this

theorem answer (h : s.Inv) (r : Result) : (s.answer r).Inv :=
  ⟨h.cfg, h.bank, h.dropcnt, h.queues_of (by simp) rfl, h.txb, h.scan⟩

theorem finish (h : s.Inv) (r : Result) : (s.finish r).Inv :=
  ⟨h.cfg, h.bank, h.dropcnt, h.queues_of (by simp) rfl, h.txb, trivial⟩

theorem setStatus (h : s.Inv) (v : Status) : (s.setStatus v).Inv :=
  ⟨h.cfg, h.bank, h.dropcnt, h.queues_of (by simp) rfl, h.txb, h.scan⟩

theorem countDrop (h : s.Inv) : s.countDrop.Inv :=
  ⟨h.cfg, h.bank, Nat.mod_lt _ (Nat.two_pow_pos _), h.queues_of (by simp) rfl, h.txb, h.scan⟩

theorem txWrite (h : s.Inv) {b : Bytes} (hb : b.length ≤ s.cfg.txbMax) : (s.txWrite b).Inv :=
  ⟨h.cfg, h.bank, h.dropcnt, h.queues_of (by simp) rfl, hb, h.scan⟩

theorem withActivity (h : s.Inv) {a : Activity} (ha : a.inBounds s.cfg) :
    ({ s with activity := a } : State).Inv :=
  ⟨h.cfg, h.bank, h.dropcnt, h.queues_of (fun q => by cases q <;> rfl) rfl, h.txb, ha⟩

theorem withInputs (h : s.Inv) (i : List Input) : ({ s with inputs := i } : State).Inv :=
  ⟨h.cfg, h.bank, h.dropcnt, h.queues_of (fun q => by cases q <;> rfl) rfl, h.txb, h.scan⟩

theorem withEnv (h : s.Inv) (e : Env) : ({ s with env := e } : State).Inv :=
  ⟨h.cfg, h.bank, h.dropcnt, h.queues_of (fun q => by cases q <;> rfl) rfl, h.txb, h.scan⟩

theorem withFresh (h : s.Inv) (n : Nat) : ({ s with fresh := n } : State).Inv :=
  ⟨h.cfg, h.bank, h.dropcnt, h.queues_of (fun q => by cases q <;> rfl) rfl, h.txb, h.scan⟩

/-- New elements of a queue within its capacity and of its size keep the invariant. -/
theorem setQueue (h : s.Inv) {q : Queue} {es : List Bytes} (hl : es.length ≤ q.cap s.cfg)
    (he : ∀ e ∈ es, e.length = q.elementBytes s.cfg) : (s.setQueue q es).Inv := by
  refine ⟨by simpa using h.cfg, by simpa using h.bank, by simpa using h.dropcnt, ?_,
    by simpa using h.txb, by simpa using h.scan⟩
  intro q'
  have := h.queues q'
  unfold State.queueWF at *
  rw [State.queue_setQueue, State.setQueue_cfg]
  split
  · rename_i hq; subst hq; exact ⟨hl, he⟩
  · exact this

/-- An enqueue of an element of the queue's size keeps the invariant. -/
theorem enqueue (h : s.Inv) {q : Queue} {e : Bytes} (hl : e.length = q.elementBytes s.cfg) :
    (s.enqueue q e).Inv := by
  have hq := h.queues q
  unfold State.enqueue
  split
  · exact h
  · refine h.setQueue ?_ ?_
    · have := hq.1; simp; omega
    · intro x hx
      rcases List.mem_append.mp hx with hx | hx
      · exact hq.2 x hx
      · rw [List.mem_singleton.mp hx, hl]

/-- A commit of a payload of the register's width keeps the invariant. -/
theorem commit (h : s.Inv) {row : CmdRow} {reg : Nat} {p : Bytes}
    (hr : s.cfg.cmdTable[reg]? = some row) (hp : p.length = row.size) : (s.commit reg p).Inv := by
  refine ⟨h.cfg, ?_, h.dropcnt, h.queues_of (by simp) rfl, h.txb, h.scan⟩
  simp only [State.commit_T, State.commit_cfg, List.map_set]
  rw [h.bank]
  apply List.ext_getElem?
  intro i
  rw [List.getElem?_set]
  split
  · rename_i hi
    subst hi
    obtain ⟨hlt, heq⟩ := List.getElem?_eq_some_iff.mp hr
    simp [hlt, hp, heq]
  · rfl

/-- A turn of a scan keeps the invariant. -/
theorem scanStep {t : State} {rx : Bytes} {cur : Nat} (h : s.Inv)
    (ha : s.activity = .scanning rx cur) (hs : ScanStep rx cur s t) : t.Inv := by
  have hb := h.scan
  rw [ha] at hb
  obtain ⟨-, hmax⟩ := hb
  have hadv : ∀ {u : State} (n : Nat), u.Inv → u.activity = s.activity → u.cfg = s.cfg →
      cur + n ≤ rx.length → (u.advance n).Inv := by
    intro u n hu hua huc hn
    have : u.advance n = { u with activity := .scanning rx (cur + n) } := by
      simp [State.advance, hua, ha]
    rw [this]
    exact hu.withActivity ⟨hn, huc ▸ hmax⟩
  cases hs with
  | ended => exact h.finish _
  | cut => exact h.countDrop.finish _
  | unknown => exact h.finish _
  | skipped hl => exact hadv 1 h rfl rfl (by omega)
  | committed row reg _ _ _ hrow hl =>
    exact hadv _ (h.commit hrow (by simp; omega)) rfl rfl (by simp only [span]; omega)
  | dropped row _ _ hl => exact hadv _ h.countDrop rfl rfl (by simp only [span]; omega)

end State.Inv

end Sys2Proof.Machine
end

