-- ==== Sys2Proof/Laws/Step.lean ====
section
/-! SUPPORT. Everything a step that answers can have done, by what the block was inside of. A step inside a
scan is `step_scanning` of Laws/Scan.lean. -/

namespace Sys2Proof.Machine

open Sys2Proof

/-- A step between operations waited, or ran the oldest transaction. -/
theorem step_idle_cases {s t : State} (ha : s.activity = .idle) (h : step s = .next t) :
    (s.inputs = [] ∧ t = s) ∨
    (∃ op operand rest i, s.inputs = .command op operand :: rest ∧
      decodePort s.cfg op operand = .ok i ∧ exec i { s with inputs := rest } = .next t) ∨
    (∃ a rest, s.inputs = .agent a :: rest ∧ agent a { s with inputs := rest } = .next t) := by
  have hw := wf_of_step h
  rw [step_of_wf s hw] at h
  unfold fetchHere at h
  rw [ha] at h
  simp only [fetchInput] at h
  split at h
  · rename_i hi
    injection h with h
    exact .inl ⟨hi, h.symm⟩
  · rename_i op operand rest hi
    split at h
    · rename_i i hd
      exact .inr (.inl ⟨op, operand, rest, i, hi, hd, h⟩)
    · simp at h
  · simp at h
  · rename_i a rest hi
    exact .inr (.inr ⟨a, rest, hi, h⟩)

/-- A step inside a `PACK` issued the selected frame, or found nothing to issue. -/
theorem step_framing_cases {s t : State} {sender : Half} (ha : s.activity = .framing sender)
    (h : step s = .next t) :
    (∃ k body, select s = some (k, body) ∧ runUi k sender body s = .next t) ∨
    (select s = none ∧ t = s.finish .nothingPending) := by
  have hw := wf_of_step h
  rw [step_of_wf s hw] at h
  unfold fetchHere at h
  rw [ha] at h
  simp only [fetchUi] at h
  split at h
  · rename_i k body hsel
    exact .inl ⟨k, body, hsel, by simpa [exec_ofUi] using h⟩
  · rename_i hsel
    injection h with h
    exact .inr ⟨hsel, h.symm⟩

/-- The instructions a port transaction decodes to. -/
theorem port_forms {c : Cfg} {op : BitVec 4} {a : Bytes} {i : Instr} (h : decodePort c op a = .ok i) :
    i = .reset ∨ i = .decode a ∨ i = .pushGraphic a ∨ i = .pushLabel a ∨ i = .pushDelete a ∨
    i = .popDelete ∨ i = .popGraphic ∨ i = .popLabel ∨ i = .graphicCount ∨ i = .pack (rd16 a 0) ∨
    i = .setOffline ∨ i = .restart ∨ i = .readField (rd16 a 0) ∨ i = .readStatus ∨
    i = .readDropcnt ∨ i = .portReserved := by
  unfold decodePort decodePlain decodeSized at h
  split at h <;> (try split at h) <;>
    first
    | (injection h with h; subst h; simp)
    | (simp at h)

end Sys2Proof.Machine
end

