-- ==== Sys2Proof/Tests/Slice0.lean ====
section
/-! SUPPORT. The model's own tests. Expected values are the vectors V<n> of 95_test_vectors.md, which that
file derives from the rules, or are written out from the encoding rules; each theorem's docstring or
section says which. Then a witness for the hypotheses of every statement that has some. -/

namespace Sys2Proof.Tests

-- The tests are many small evaluations: one after the other, not one thread each.
set_option Elab.async false

open Sys2Proof Sys2Proof.Machine Sys2Proof.Claims

/-! ## Helpers -/

/-- The next state of an outcome, if it has one. -/
def after (o : StepOutcome) : Option State :=
  match o with
  | .next s => some s
  | .fault _ => none
  | .refused _ => none

/-- The result of an outcome's next state. -/
def resultOf (o : StepOutcome) : Option Result := (after o).map State.result

/-- The refusal of an outcome. -/
def refusalOf (o : StepOutcome) : Option Refusal :=
  match o with
  | .next _ => none
  | .fault _ => none
  | .refused r => some r

/-- The decoded instruction of a code under CFG_T. -/
def dec (c : Code) : Option Instr := (decode Config.cfgT c).toOption

/-- A configuration with a one-byte row for every named variant and one unnamed row, for tests only: the
ids are those of 93_implementation_defined.md G4, the sizes and the last id are invented. -/
def cfgAll : Cfg :=
  { Config.cfgT with
    cmdTable := [⟨0x0001, .gameStatus, 1⟩, ⟨0x0002, .gameResult, 1⟩, ⟨0x0003, .robotHp, 1⟩,
      ⟨0x0004, .dartStatus, 1⟩, ⟨0x0101, .fieldEvents, 1⟩, ⟨0x0201, .robotStatus, 1⟩,
      ⟨0x0202, .powerHeat, 1⟩, ⟨0x0203, .position, 1⟩, ⟨0x0204, .buffs, 1⟩, ⟨0x0206, .damage, 1⟩,
      ⟨0x0207, .launcherData, 1⟩, ⟨0x0208, .bulletsRemaining, 1⟩, ⟨0x0209, .rfid, 1⟩,
      ⟨0x0303, .clientMaps, 1⟩, ⟨0x0304, .keyboardMouse, 1⟩, ⟨0x0305, .other 15, 1⟩]
    tReset := List.replicate 16 [0] }

/-- CFG_T0 of 95_test_vectors.md: CFG_T with a zero-size row. -/
def cfgT0 : Cfg :=
  { Config.cfgT with
    cmdTable := Config.cfgT.cmdTable ++ [⟨0x0004, .dartStatus, 0⟩]
    tReset := Config.cfgT.tReset ++ [[]] }

def f1 : Bytes := [0xA5, 0x03, 0x00, 0x00, 0x27, 0x01, 0x00, 0x11, 0x22, 0x33, 0x5F, 0x86]
def f2 : Bytes := [0xA5, 0x01, 0x00, 0x00, 0x68, 0x02, 0x00, 0x07, 0x11, 0xB4]
def f2p : Bytes := [0xA5, 0x01, 0x00, 0x00, 0x68, 0x02, 0x00, 0x06, 0x11, 0xB4]
def f3 : Bytes := [0xA5, 0x04, 0x00, 0x00, 0x5D, 0x01, 0x02, 0xDE, 0xAD, 0xBE, 0xEF, 0xD4, 0x6C]
def f3t : Bytes := [0xA5, 0x04, 0x00, 0x00, 0x5D, 0x01, 0x02, 0xDE, 0xAD, 0xBE, 0xEF, 0xD4, 0xEC]
def fUnk : Bytes := [0xA5, 0x01, 0x00, 0x00, 0x68, 0x99, 0x09, 0x01, 0xE0, 0xA6]

/-- The graphic element g(n) of 95_test_vectors.md. -/
def g (n : Nat) : Bytes := (List.range 15).map fun i => BitVec.ofNat 8 (n * 16 + i)
/-- The label element of 95_test_vectors.md. -/
def lab : Bytes := (List.range 45).map fun i => BitVec.ofNat 8 (0x40 + i)
def del : Bytes := [0x01, 0x03]

/-- The frames V66, V60, V61, V62, V64, V67. -/
def v66 : Bytes := [0xA5, 0x08, 0x00, 0x00, 0xE6, 0x01, 0x03, 0x00, 0x01, 0x01, 0x00, 0x01, 0x01,
  0x01, 0x03, 0x37, 0x7A]
def v60 : Bytes := [0xA5, 0x15, 0x00, 0x00, 0xBC, 0x01, 0x03, 0x01, 0x01, 0x01, 0x00, 0x01, 0x01] ++
  g 1 ++ [0xC8, 0x48]
def v61 : Bytes := [0xA5, 0x24, 0x00, 0x00, 0xC9, 0x01, 0x03, 0x02, 0x01, 0x64, 0x00, 0x64, 0x01] ++
  g 1 ++ g 2 ++ [0x50, 0x0F]
def v62 : Bytes := [0xA5, 0x51, 0x00, 0x00, 0x13, 0x01, 0x03, 0x03, 0x01, 0x65, 0x00, 0x65, 0x01] ++
  g 1 ++ g 2 ++ g 3 ++ zeros 30 ++ [0x3E, 0xBD]
def v64 : Bytes := [0xA5, 0x6F, 0x00, 0x00, 0x39, 0x01, 0x03, 0x04, 0x01, 0x01, 0x00, 0x01, 0x01] ++
  g 1 ++ g 2 ++ g 3 ++ g 4 ++ g 5 ++ g 6 ++ g 7 ++ [0xE4, 0x8E]
def v67 : Bytes := [0xA5, 0x33, 0x00, 0x00, 0xF9, 0x01, 0x03, 0x10, 0x01, 0x01, 0x00, 0x01, 0x01] ++
  lab ++ [0xA0, 0xCF]

/-- A state in use: a bank with values, a count, one element in each queue, a frame in `TXB`. -/
def busy : State :=
  { State.reset with
    T := [[0x99, 0x99, 0x99], [0x55], [0x01, 0x02, 0x03, 0x04]]
    dropcnt := 7
    gq := [g 1]
    lq := [lab]
    dq := [del]
    txb := v66 }

/-- A state inside a scan, and a state inside a `PACK`. -/
def scanning (rx : Bytes) (cur : Nat) : State := { busy with activity := .scanning rx cur }
def framing (sender : Half) : State := { busy with activity := .framing sender }

/-- A state with transactions to take. -/
def given (is : List Input) : State := { busy with inputs := is }

/-! ## WellFormed: an ill-formed term for each check (R50, R96, R86, R89, R91, R148) -/

theorem test_illFormed_decode : (.decode (zeros 257) : Instr).wellFormed Config.cfgT = false := by decide +kernel
theorem test_illFormed_pushGraphic : (.pushGraphic (zeros 14) : Instr).wellFormed Config.cfgT = false := by decide +kernel
theorem test_illFormed_pushLabel : (.pushLabel (zeros 44) : Instr).wellFormed Config.cfgT = false := by decide +kernel
theorem test_illFormed_pushDelete : (.pushDelete (zeros 3) : Instr).wellFormed Config.cfgT = false := by decide +kernel
theorem test_illFormed_readField : (.readField 3 : Instr).wellFormed Config.cfgT = false := by decide +kernel
theorem test_illFormed_fUnknown : (.fUnknown 0 0 0x0001 : Instr).wellFormed Config.cfgT = false := by decide +kernel
theorem test_illFormed_uiDelete : (.uiDelete 0 (zeros 1) : Instr).wellFormed Config.cfgT = false := by decide +kernel
theorem test_illFormed_uiDraw1 : (.uiDraw1 0 (zeros 16) : Instr).wellFormed Config.cfgT = false := by decide +kernel
theorem test_illFormed_uiDraw2 : (.uiDraw2 0 (zeros 29) : Instr).wellFormed Config.cfgT = false := by decide +kernel
theorem test_illFormed_uiDraw5 : (.uiDraw5 0 (zeros 74) : Instr).wellFormed Config.cfgT = false := by decide +kernel
theorem test_illFormed_uiDraw7 : (.uiDraw7 0 (zeros 106) : Instr).wellFormed Config.cfgT = false := by decide +kernel
theorem test_illFormed_uiString : (.uiString 0 (zeros 44) : Instr).wellFormed Config.cfgT = false := by decide +kernel
theorem test_illFormed_fGameStatus :
    (Instr.fGameStatus ⟨0, 0, [1, 2], 0⟩).wellFormed cfgAll = false := by decide +kernel
theorem test_illFormed_fGameResult :
    (Instr.fGameResult ⟨0, 0, [1, 2], 0⟩).wellFormed cfgAll = false := by decide +kernel
theorem test_illFormed_fRobotHp :
    (Instr.fRobotHp ⟨0, 0, [1, 2], 0⟩).wellFormed cfgAll = false := by decide +kernel
theorem test_illFormed_fDartStatus :
    (Instr.fDartStatus ⟨0, 0, [1, 2], 0⟩).wellFormed cfgAll = false := by decide +kernel
theorem test_illFormed_fFieldEvents :
    (Instr.fFieldEvents ⟨0, 0, [1, 2], 0⟩).wellFormed cfgAll = false := by decide +kernel
theorem test_illFormed_fRobotStatus :
    (Instr.fRobotStatus ⟨0, 0, [1, 2], 0⟩).wellFormed cfgAll = false := by decide +kernel
theorem test_illFormed_fPowerHeat :
    (Instr.fPowerHeat ⟨0, 0, [1, 2], 0⟩).wellFormed cfgAll = false := by decide +kernel
theorem test_illFormed_fPosition :
    (Instr.fPosition ⟨0, 0, [1, 2], 0⟩).wellFormed cfgAll = false := by decide +kernel
theorem test_illFormed_fBuffs :
    (Instr.fBuffs ⟨0, 0, [1, 2], 0⟩).wellFormed cfgAll = false := by decide +kernel
theorem test_illFormed_fDamage :
    (Instr.fDamage ⟨0, 0, [1, 2], 0⟩).wellFormed cfgAll = false := by decide +kernel
theorem test_illFormed_fLauncherData :
    (Instr.fLauncherData ⟨0, 0, [1, 2], 0⟩).wellFormed cfgAll = false := by decide +kernel
theorem test_illFormed_fBulletsRemaining :
    (Instr.fBulletsRemaining ⟨0, 0, [1, 2], 0⟩).wellFormed cfgAll = false := by decide +kernel
theorem test_illFormed_fRfid :
    (Instr.fRfid ⟨0, 0, [1, 2], 0⟩).wellFormed cfgAll = false := by decide +kernel
theorem test_illFormed_fClientMaps :
    (Instr.fClientMaps ⟨0, 0, [1, 2], 0⟩).wellFormed cfgAll = false := by decide +kernel
theorem test_illFormed_fKeyboardMouse :
    (Instr.fKeyboardMouse ⟨0, 0, [1, 2], 0⟩).wellFormed cfgAll = false := by decide +kernel
theorem test_illFormed_fOther :
    (Instr.fOther 15 ⟨0, 0, [], 0⟩).wellFormed cfgAll = false ∧
    (Instr.fOther 16 ⟨0, 0, [1], 0⟩).wellFormed cfgAll = false := by decide +kernel
theorem test_illFormed_noRow :
    (Instr.fRobotHp ⟨0, 0, [1], 0⟩).wellFormed Config.cfgT = false := by decide +kernel

/-! ## Every constructor decoded from a code written out

Port codes from 30_encoding.md R96, frames from the named strings and V60 to V67 of 95_test_vectors.md;
for the variants without a row in CFG_T, the bytes of R80 with the header of V13 and a one-byte
payload. -/

theorem test_decode_reset : dec (.port 0x0 []) = some (.reset) := by decide +kernel
theorem test_decode_decode : dec (.port 0x1 [0x00, 0xFF, 0x12]) = some (.decode [0x00, 0xFF, 0x12]) := by decide +kernel
theorem test_decode_pushGraphic : dec (.port 0x2 (g 1)) = some (.pushGraphic (g 1)) := by decide +kernel
theorem test_decode_pushLabel : dec (.port 0x3 lab) = some (.pushLabel lab) := by decide +kernel
theorem test_decode_pushDelete : dec (.port 0x4 [0x01, 0x03]) = some (.pushDelete [0x01, 0x03]) := by decide +kernel
theorem test_decode_popDelete : dec (.port 0x5 []) = some (.popDelete) := by decide +kernel
theorem test_decode_popGraphic : dec (.port 0x6 []) = some (.popGraphic) := by decide +kernel
theorem test_decode_popLabel : dec (.port 0x7 []) = some (.popLabel) := by decide +kernel
theorem test_decode_graphicCount : dec (.port 0x8 []) = some (.graphicCount) := by decide +kernel
theorem test_decode_pack : dec (.port 0x9 [0x64, 0x01]) = some (.pack 0x0164) := by decide +kernel
theorem test_decode_setOffline : dec (.port 0xA []) = some (.setOffline) := by decide +kernel
theorem test_decode_restart : dec (.port 0xB []) = some (.restart) := by decide +kernel
theorem test_decode_readField : dec (.port 0xC [0x02, 0x00]) = some (.readField 2) := by decide +kernel
theorem test_decode_readStatus : dec (.port 0xD []) = some (.readStatus) := by decide +kernel
theorem test_decode_readDropcnt : dec (.port 0xE []) = some (.readDropcnt) := by decide +kernel
theorem test_decode_portReserved : dec (.port 0xF []) = some (.portReserved) := by decide +kernel
theorem test_decode_fGameStatus :
    (decode cfgAll (.inbound [0xA5, 0x01, 0x00, 0x00, 0x68, 0x01, 0x00, 0x5A, 0x34, 0x12])).toOption =
      some (.fGameStatus ⟨1, 0, [0x5A], 0x1234⟩) := by decide +kernel
theorem test_decode_fGameResult :
    (decode cfgAll (.inbound [0xA5, 0x01, 0x00, 0x00, 0x68, 0x02, 0x00, 0x5A, 0x34, 0x12])).toOption =
      some (.fGameResult ⟨1, 0, [0x5A], 0x1234⟩) := by decide +kernel
theorem test_decode_fRobotHp :
    (decode cfgAll (.inbound [0xA5, 0x01, 0x00, 0x00, 0x68, 0x03, 0x00, 0x5A, 0x34, 0x12])).toOption =
      some (.fRobotHp ⟨1, 0, [0x5A], 0x1234⟩) := by decide +kernel
theorem test_decode_fDartStatus :
    (decode cfgAll (.inbound [0xA5, 0x01, 0x00, 0x00, 0x68, 0x04, 0x00, 0x5A, 0x34, 0x12])).toOption =
      some (.fDartStatus ⟨1, 0, [0x5A], 0x1234⟩) := by decide +kernel
theorem test_decode_fFieldEvents :
    (decode cfgAll (.inbound [0xA5, 0x01, 0x00, 0x00, 0x68, 0x01, 0x01, 0x5A, 0x34, 0x12])).toOption =
      some (.fFieldEvents ⟨1, 0, [0x5A], 0x1234⟩) := by decide +kernel
theorem test_decode_fRobotStatus :
    (decode cfgAll (.inbound [0xA5, 0x01, 0x00, 0x00, 0x68, 0x01, 0x02, 0x5A, 0x34, 0x12])).toOption =
      some (.fRobotStatus ⟨1, 0, [0x5A], 0x1234⟩) := by decide +kernel
theorem test_decode_fPowerHeat :
    (decode cfgAll (.inbound [0xA5, 0x01, 0x00, 0x00, 0x68, 0x02, 0x02, 0x5A, 0x34, 0x12])).toOption =
      some (.fPowerHeat ⟨1, 0, [0x5A], 0x1234⟩) := by decide +kernel
theorem test_decode_fPosition :
    (decode cfgAll (.inbound [0xA5, 0x01, 0x00, 0x00, 0x68, 0x03, 0x02, 0x5A, 0x34, 0x12])).toOption =
      some (.fPosition ⟨1, 0, [0x5A], 0x1234⟩) := by decide +kernel
theorem test_decode_fBuffs :
    (decode cfgAll (.inbound [0xA5, 0x01, 0x00, 0x00, 0x68, 0x04, 0x02, 0x5A, 0x34, 0x12])).toOption =
      some (.fBuffs ⟨1, 0, [0x5A], 0x1234⟩) := by decide +kernel
theorem test_decode_fDamage :
    (decode cfgAll (.inbound [0xA5, 0x01, 0x00, 0x00, 0x68, 0x06, 0x02, 0x5A, 0x34, 0x12])).toOption =
      some (.fDamage ⟨1, 0, [0x5A], 0x1234⟩) := by decide +kernel
theorem test_decode_fLauncherData :
    (decode cfgAll (.inbound [0xA5, 0x01, 0x00, 0x00, 0x68, 0x07, 0x02, 0x5A, 0x34, 0x12])).toOption =
      some (.fLauncherData ⟨1, 0, [0x5A], 0x1234⟩) := by decide +kernel
theorem test_decode_fBulletsRemaining :
    (decode cfgAll (.inbound [0xA5, 0x01, 0x00, 0x00, 0x68, 0x08, 0x02, 0x5A, 0x34, 0x12])).toOption =
      some (.fBulletsRemaining ⟨1, 0, [0x5A], 0x1234⟩) := by decide +kernel
theorem test_decode_fRfid :
    (decode cfgAll (.inbound [0xA5, 0x01, 0x00, 0x00, 0x68, 0x09, 0x02, 0x5A, 0x34, 0x12])).toOption =
      some (.fRfid ⟨1, 0, [0x5A], 0x1234⟩) := by decide +kernel
theorem test_decode_fClientMaps :
    (decode cfgAll (.inbound [0xA5, 0x01, 0x00, 0x00, 0x68, 0x03, 0x03, 0x5A, 0x34, 0x12])).toOption =
      some (.fClientMaps ⟨1, 0, [0x5A], 0x1234⟩) := by decide +kernel
theorem test_decode_fKeyboardMouse :
    (decode cfgAll (.inbound [0xA5, 0x01, 0x00, 0x00, 0x68, 0x04, 0x03, 0x5A, 0x34, 0x12])).toOption =
      some (.fKeyboardMouse ⟨1, 0, [0x5A], 0x1234⟩) := by decide +kernel
theorem test_decode_fOther :
    (decode cfgAll (.inbound [0xA5, 0x01, 0x00, 0x00, 0x68, 0x05, 0x03, 0x5A, 0x34, 0x12])).toOption =
      some (.fOther 15 ⟨1, 0, [0x5A], 0x1234⟩) := by decide +kernel
theorem test_decode_fUnknown :
    dec (.inbound [0xA5, 0x01, 0x00, 0x00, 0x68, 0x99, 0x09]) = some (.fUnknown 1 0 0x0999) := by
  decide +kernel
theorem test_decode_uiDelete : dec (.outbound v66) = some (.uiDelete 1 del) := by decide +kernel
theorem test_decode_uiDraw1 : dec (.outbound v60) = some (.uiDraw1 1 (g 1)) := by decide +kernel
theorem test_decode_uiDraw2 : dec (.outbound v61) = some (.uiDraw2 0x64 (g 1 ++ g 2)) := by decide +kernel
theorem test_decode_uiDraw5 : dec (.outbound v62) = some (.uiDraw5 0x65 (g 1 ++ g 2 ++ g 3 ++ zeros 30)) := by decide +kernel
theorem test_decode_uiDraw7 : dec (.outbound v64) = some (.uiDraw7 1 (g 1 ++ g 2 ++ g 3 ++ g 4 ++ g 5 ++ g 6 ++ g 7)) := by decide +kernel
theorem test_decode_uiString : dec (.outbound v67) = some (.uiString 1 lab) := by decide +kernel
/-- Codes no instruction has: a missing operand, a byte too many, a wrong start byte, a wrong header
checksum (V27), a frame one byte short, an outbound frame with a wrong trailer. -/
theorem test_decode_rejects :
    (dec (.port 0x9 [0x01]), dec (.port 0x0 [0x00]), dec (.inbound [0xA4]),
      dec (.inbound [0xA5, 0x03, 0x00, 0x00, 0x26]), dec (.inbound (f1.take 11)),
      dec (.outbound (v66.take 16 ++ [0x7B]))) = (none, none, none, none, none, none) := by
  decide +kernel

/-- The opcode table's bits: a port code, a command id, a sub-command id, an id of neither. -/
theorem test_decodeTableWord :
    (decodeTableWord 8 0xF, decodeTableWord 8 0xC, decodeTableWord 16 0x0201,
      (decodeTableWord 16 0x0104).isSome, decodeTableWord 16 0x0999) =
    (some .portReserved, some (.readField 0), some (.fRobotStatus ⟨4, 0, zeros 4, 0⟩), true,
      some (.fUnknown 0 0 0x0999)) := by decide +kernel

/-- A placed code is what the next step runs: `READ_STATUS` on the reset state, and a frame. -/
theorem test_withFetchWord :
    (resultOf (step (State.reset.withFetchWord 8 0xD)) = some (.status 0)) ∧
    ((after (step (State.reset.withFetchWord 16 0x0002))).map State.dropcnt = some 1) ∧
    ((after (step (State.reset.withFetchWord 16 0x0100))).map (·.txb.length) = some 17) := by
  decide +kernel

/-! ## Units: V1 to V40, V70 to V78 -/

theorem test_crc8 : crc8Reference [0x00] 0xFF = 0x35 ∧
    crc8Reference [0x31, 0x32, 0x33, 0x34, 0x35, 0x36, 0x37, 0x38, 0x39] 0x00 = 0xA1 := by
  decide +kernel
theorem test_crc16 : crc16Reference [0xA5] 0xFFFF = 0xFD20 ∧
    crc16Reference (f1.take 10) 0xFFFF = 0x865F := by decide +kernel
theorem test_hdrGen : Config.cfgT.hdrGen 0xFFFF 0xFF = [0xA5, 0xFF, 0xFF, 0xFF, 0xA5] ∧
    (Config.cfgT.hdrGen 0x0102 0).take 3 = [0xA5, 0x02, 0x01] := by decide +kernel
theorem test_hdrChk : Config.cfgT.hdrChk [0xA5, 0x03, 0x00, 0x00, 0x27] = true ∧
    Config.cfgT.hdrChk [0xA5, 0x03, 0x00, 0x01, 0x27] = false := by decide +kernel
theorem test_frmChk : Config.cfgT.frmChk f1 = true ∧ Config.cfgT.frmChk f3t = false ∧
    Config.cfgT.frmChk (f1.take 10 ++ [0x86, 0x5F]) = false := by decide +kernel
theorem test_receiver : receiver 100 = 0x0164 ∧ receiver 101 = 0x0165 ∧ receiver 0xFF00 = 0 ∧
    receiver 0xFFFF = 0x00FF := by decide +kernel

/-! ## One step of each port operation: V41 to V59d, V60 to V69, V80 to V87, V100 to V107 -/

/-- V105: `RESET` clears the block, and keeps what is not the block's. -/
theorem test_reset : (after (exec .reset (scanning f1 3))).map
    (fun s => (s.T, s.dropcnt, s.gq ++ s.lq ++ s.dq, s.txb)) =
    some ([[0, 0, 0], [0], [0, 0, 0, 0]], 0, [], []) := by decide +kernel
/-- What a `DECODE` leaves: the result, the bank, the count, the status. -/
def decoded (rx : Bytes) (s : State) : Option (Result × List Bytes × Nat × Status) :=
  (after (exec (.decode rx) s)).map fun t => (t.result, t.T, t.dropcnt, t.status)
/-- P1 from a state in use (noise, a false start, a good frame, a bad one, a good one, a cut-off one);
V59 (the cursor passes a dropped frame's span) and V59a (with intact bytes in it); V39 (zero size). -/
theorem test_decode_frames :
    decoded ([0x12, 0xA5, 0x34] ++ f1 ++ [0xA5] ++ f2p ++ f3 ++ f1.take 6) busy =
      some (.ok, [[0x11, 0x22, 0x33], [0x55], [0xDE, 0xAD, 0xBE, 0xEF]], 8, .running) ∧
    decoded (f3t ++ f2) State.reset =
      some (.ok, [[0, 0, 0], [0x07], [0, 0, 0, 0]], 1, .running) ∧
    decoded (f3.take 7 ++ f2 ++ f1) State.reset =
      some (.ok, [[0x11, 0x22, 0x33], [0], [0, 0, 0, 0]], 1, .running) ∧
    (decoded ([0xA5, 0x00, 0x00, 0x00, 0xC3, 0x04, 0x00, 0x2C, 0xE4] ++ f2)
      (State.resetWith cfgT0)).map (·.2.1) =
      some [[0, 0, 0], [0x07], [0, 0, 0, 0], []] := by
  refine ⟨?_, ?_, ?_, ?_⟩ <;> decide +kernel
/-- P2 (an unknown id ends the call at index 12, the rest is lost); V52 to V57 (the counts after a header,
an id and a frame that are cut off); V59c (the counter wraps). -/
theorem test_decode_ends :
    decoded (f1 ++ fUnk ++ f3) State.reset =
      some (.errUnknownCmd 0x0999 12, [[0x11, 0x22, 0x33], [0], [0, 0, 0, 0]], 0, .running) ∧
    ([[0xA5], f1.take 6, f1.take 7, f1.take 11] : List Bytes).map
      (fun rx => (decoded rx State.reset).map (·.2.2.1)) = [some 0, some 0, some 1, some 1] ∧
    (decoded f2p { State.reset with dropcnt := 2 ^ 32 - 1 }).map (·.2.2.1) = some 0 := by
  decide +kernel
/-- V82: eight graphics fit, the ninth does not. -/
theorem test_pushGraphic :
    (after (exec (.pushGraphic (g 2)) busy)).map (fun s => (s.result, s.gq)) =
      some (.ok, [g 1, g 2]) ∧
    resultOf (exec (.pushGraphic (g 1)) { busy with gq := List.replicate 8 (g 1) }) =
      some .queueFull := by decide +kernel
/-- V85. -/
theorem test_pushLabel :
    resultOf (exec (.pushLabel lab) { busy with lq := List.replicate 6 lab }) = some .ok ∧
    resultOf (exec (.pushLabel lab) { busy with lq := List.replicate 7 lab }) = some .queueFull := by
  decide +kernel
/-- V84. -/
theorem test_pushDelete :
    (after (exec (.pushDelete [2, 4]) busy)).map (·.dq) = some [del, [2, 4]] ∧
    resultOf (exec (.pushDelete [3, 5]) { busy with dq := [del, [2, 4]] }) = some .queueFull := by
  decide +kernel
theorem test_popDelete :
    (after (exec .popDelete { busy with dq := [del, [2, 4]] })).map (fun s => (s.result, s.dq)) =
      some (.element del, [[2, 4]]) ∧
    resultOf (exec .popDelete State.reset) = some .noElement := by decide +kernel
theorem test_popGraphic :
    (after (exec .popGraphic { busy with gq := [g 1, g 2] })).map (fun s => (s.result, s.gq)) =
      some (.element (g 1), [g 2]) := by decide +kernel
theorem test_popLabel :
    (after (exec .popLabel busy)).map (fun s => (s.result, s.lq, s.gq)) =
      some (.element lab, [], [g 1]) := by decide +kernel
theorem test_graphicCount :
    resultOf (exec .graphicCount { busy with gq := [g 1, g 2, g 3] }) = some (.count 3) := by
  decide +kernel
/-- V66, V69: the delete goes first; V64: seven of eight graphics. -/
theorem test_pack :
    (after (exec (.pack 1) busy)).map (fun s => (s.result, s.txb, s.dq, s.gq)) =
      some (.frame v66, v66, [], [g 1]) ∧
    (after (exec (.pack 1) { busy with dq := [], gq := (List.range 8).map (g <| · + 1) })).map
      (fun s => (s.result, s.gq)) = some (.frame v64, [g 8]) := by decide +kernel
/-- V62: capacity 5 with two inert slots; V65: nothing pending leaves `TXB`. -/
theorem test_pack_more :
    resultOf (exec (.pack 0x65) { busy with dq := [], gq := [g 1, g 2, g 3] }) =
      some (.frame v62) ∧
    (after (exec (.pack 1) { busy with dq := [], gq := [], lq := [] })).map
      (fun s => (s.result, s.txb)) = some (.nothingPending, v66) := by decide +kernel
theorem test_setOffline : (after (exec .setOffline { busy with status := .running })).map
    (fun s => (s.status, s.T)) = some (.offline, busy.T) := by decide +kernel
theorem test_restart : (after (exec .restart { busy with status := .running })).map
    (fun s => (s.status, s.dropcnt, s.gq)) = some (.offline, 7, [g 1]) := by decide +kernel
theorem test_readField : resultOf (exec (.readField 1) busy) = some (.bytes [0x55]) := by
  decide +kernel
theorem test_readStatus :
    resultOf (exec .readStatus { busy with status := .running }) = some (.status 1) := by
  decide +kernel
theorem test_readDropcnt : resultOf (exec .readDropcnt busy) = some (.dropcnt 7) := by
  decide +kernel
/-- V107. -/
theorem test_portReserved : refusalOf (exec .portReserved busy) = some .reservedPortCode := by
  decide +kernel

/-! ## One step of each wire instruction (V43 to V45; R151, R152), on a bank of one-byte registers

The trailer 0xB411 is that of F2's bytes; over another id's bytes it is wrong. -/

/-- The bank and the count after a wire instruction from the reset state of `cfgAll`. -/
def committed (i : Instr) : Option (List Bytes × Nat) :=
  (after (exec i (State.resetWith cfgAll))).map fun s => (s.T, s.dropcnt)
/-- The bank of `cfgAll` with one register written. -/
def bank (k : Nat) : List Bytes := (List.replicate 16 [0]).set k [0x07]

theorem test_fGameStatus : committed (.fGameStatus ⟨1, 0, [0x07], 0x5B75⟩) = some (bank 0, 0) ∧
    committed (.fGameStatus ⟨1, 0, [0x07], 0xDB75⟩) = some (List.replicate 16 [0], 1) := by
  decide +kernel
theorem test_fGameResult : committed (.fGameResult ⟨1, 0, [0x07], 0xB411⟩) = some (bank 1, 0) ∧
    committed (.fGameResult ⟨1, 0, [0x07], 0x3411⟩) = some (List.replicate 16 [0], 1) := by
  decide +kernel
theorem test_fRobotHp : committed (.fRobotHp ⟨1, 0, [0x07], 0xEECD⟩) = some (bank 2, 0) ∧
    committed (.fRobotHp ⟨1, 0, [0x07], 0x6ECD⟩) = some (List.replicate 16 [0], 1) := by
  decide +kernel
theorem test_fDartStatus : committed (.fDartStatus ⟨1, 0, [0x07], 0x62C8⟩) = some (bank 3, 0) ∧
    committed (.fDartStatus ⟨1, 0, [0x07], 0xE2C8⟩) = some (List.replicate 16 [0], 1) := by
  decide +kernel
theorem test_fFieldEvents : committed (.fFieldEvents ⟨1, 0, [0x07], 0x42AD⟩) = some (bank 4, 0) ∧
    committed (.fFieldEvents ⟨1, 0, [0x07], 0xC2AD⟩) = some (List.replicate 16 [0], 1) := by
  decide +kernel
theorem test_fRobotStatus : committed (.fRobotStatus ⟨1, 0, [0x07], 0x68C5⟩) = some (bank 5, 0) ∧
    committed (.fRobotStatus ⟨1, 0, [0x07], 0xE8C5⟩) = some (List.replicate 16 [0], 1) := by
  decide +kernel
theorem test_fPowerHeat : committed (.fPowerHeat ⟨1, 0, [0x07], 0x87A1⟩) = some (bank 6, 0) ∧
    committed (.fPowerHeat ⟨1, 0, [0x07], 0x07A1⟩) = some (List.replicate 16 [0], 1) := by
  decide +kernel
theorem test_fPosition : committed (.fPosition ⟨1, 0, [0x07], 0xDD7D⟩) = some (bank 7, 0) ∧
    committed (.fPosition ⟨1, 0, [0x07], 0x5D7D⟩) = some (List.replicate 16 [0], 1) := by
  decide +kernel
theorem test_fBuffs : committed (.fBuffs ⟨1, 0, [0x07], 0x5178⟩) = some (bank 8, 0) ∧
    committed (.fBuffs ⟨1, 0, [0x07], 0xD178⟩) = some (List.replicate 16 [0], 1) := by
  decide +kernel
theorem test_fDamage : committed (.fDamage ⟨1, 0, [0x07], 0xE4C0⟩) = some (bank 9, 0) ∧
    committed (.fDamage ⟨1, 0, [0x07], 0x64C0⟩) = some (List.replicate 16 [0], 1) := by
  decide +kernel
theorem test_fLauncherData : committed (.fLauncherData ⟨1, 0, [0x07], 0xBE1C⟩) = some (bank 10, 0) ∧
    committed (.fLauncherData ⟨1, 0, [0x07], 0x3E1C⟩) = some (List.replicate 16 [0], 1) := by
  decide +kernel
theorem test_fBulletsRemaining : committed (.fBulletsRemaining ⟨1, 0, [0x07], 0xF4DB⟩) = some (bank 11, 0) ∧
    committed (.fBulletsRemaining ⟨1, 0, [0x07], 0x74DB⟩) = some (List.replicate 16 [0], 1) := by
  decide +kernel
theorem test_fRfid : committed (.fRfid ⟨1, 0, [0x07], 0xAE07⟩) = some (bank 12, 0) ∧
    committed (.fRfid ⟨1, 0, [0x07], 0x2E07⟩) = some (List.replicate 16 [0], 1) := by
  decide +kernel
theorem test_fClientMaps : committed (.fClientMaps ⟨1, 0, [0x07], 0xC4A5⟩) = some (bank 13, 0) ∧
    committed (.fClientMaps ⟨1, 0, [0x07], 0x44A5⟩) = some (List.replicate 16 [0], 1) := by
  decide +kernel
theorem test_fKeyboardMouse : committed (.fKeyboardMouse ⟨1, 0, [0x07], 0x48A0⟩) = some (bank 14, 0) ∧
    committed (.fKeyboardMouse ⟨1, 0, [0x07], 0xC8A0⟩) = some (List.replicate 16 [0], 1) := by
  decide +kernel
theorem test_fOther : committed (.fOther 15 ⟨1, 0, [0x07], 0x127C⟩) = some (bank 15, 0) ∧
    committed (.fOther 15 ⟨1, 0, [0x07], 0x927C⟩) = some (List.replicate 16 [0], 1) := by
  decide +kernel
/-- V58. -/
theorem test_fUnknown : (after (exec (.fUnknown 1 0 0x0999) (scanning (f1 ++ fUnk) 12))).map
    (fun s => (s.result, s.activity, s.T, s.dropcnt)) =
    some (.errUnknownCmd 0x0999 12, .idle, busy.T, 7) := by decide +kernel

/-! ## One step of each outbound frame: V60 to V67 -/

/-- The result and the three queues after an outbound frame. -/
def framed (i : Instr) (s : State) : Option (Result × List Bytes × List Bytes × List Bytes) :=
  (after (exec i s)).map fun t => (t.result, t.dq, t.gq, t.lq)
theorem test_uiDelete :
    framed (.uiDelete 1 del) busy = some (.frame v66, [], [g 1], [lab]) := by decide +kernel
theorem test_uiDraw1 :
    framed (.uiDraw1 1 (g 1)) busy = some (.frame v60, [del], [], [lab]) := by decide +kernel
theorem test_uiDraw2 : framed (.uiDraw2 0x64 (g 1 ++ g 2)) { busy with gq := [g 1, g 2] } =
    some (.frame v61, [del], [], [lab]) := by decide +kernel
theorem test_uiDraw5 :
    framed (.uiDraw5 0x65 (g 1 ++ g 2 ++ g 3 ++ zeros 30)) { busy with gq := [g 1, g 2, g 3] } =
    some (.frame v62, [del], [], [lab]) := by decide +kernel
theorem test_uiDraw7 : framed (.uiDraw7 1 (g 1 ++ g 2 ++ g 3 ++ g 4 ++ g 5 ++ g 6 ++ g 7))
    { busy with gq := (List.range 8).map (g <| · + 1) } =
    some (.frame v64, [del], [g 8], [lab]) := by decide +kernel
theorem test_uiString :
    framed (.uiString 1 lab) busy = some (.frame v67, [del], [g 1], []) := by decide +kernel

/-! ## One operation of each agent: V90 to V95, P6 -/

def modes : ModeSnapshot := ⟨some .first, some .second, some .third, some .first, true, false⟩
/-- The state with a phase and an operation mode. -/
def ticking (p : BitVec 3) (op : GraphicOp) : State :=
  { State.reset with env := { State.reset.env with phase := p, graphicOp := op } }
/-- The phase, the mode and the queue lengths after an agent's operation. -/
def ticked (a : AgentOp) (s : State) : Option (BitVec 3 × GraphicOp × Nat × Nat) :=
  (after (agent a s)).map fun t => (t.env.phase, t.env.graphicOp, t.gq.length, t.lq.length)
/-- V90's first tick (line and rectangle), V92 (a phase out of range). -/
theorem test_fastTick : ticked (.fastTick modes) (ticking 0 .add) = some (1, .rewrite, 2, 0) ∧
    ticked (.fastTick modes) (ticking 6 .add) = some (0, .rewrite, 0, 0) := by decide +kernel
/-- V92a (an unrecognised mode), V92b (the second push finds the queue full). -/
theorem test_fastTick_more :
    ticked (.fastTick { modes with chassis := none }) (ticking 0 .add) = some (1, .rewrite, 1, 0) ∧
    ticked (.fastTick modes) { ticking 3 .rewrite with gq := List.replicate 7 (g 1) } =
      some (4, .rewrite, 8, 0) := by decide +kernel
/-- V91's slow tick. -/
theorem test_slowTick : ticked .slowTick (ticking 3 .rewrite) = some (1, .add, 1, 6) := by
  decide +kernel
/-- The frame in flight, the released ones and the notifications after a send of `[2]` over `[1]`. -/
def sent (accepted : Bool) : Option (Option Bytes × List Bytes × Nat) :=
  (after (agent (.send [2] accepted)
    { busy with env := { busy.env with inflight := some [1] } })).map
      fun s => (s.env.inflight, s.env.released, s.env.sendComplete)
/-- V93: the second accepted send releases the first frame; a refused one releases nothing. -/
theorem test_send : sent true = some (some [2], [[1]], 1) ∧ sent false = some (some [1], [], 1) := by
  decide +kernel
/-- V94: the later post replaces the earlier one; a take clears the slot. -/
theorem test_mailbox :
    (after (agent (.post .tickFast)
      { busy with env := { busy.env with mailbox := some .rxDone } })).map (·.env.mailbox) =
      some (some .tickFast) ∧
    (after (agent .take { busy with env := { busy.env with mailbox := some .rxIdle } })).map
      (fun s => (s.result, s.env.mailbox)) = some (.event .rxIdle, none) := by decide +kernel
/-- R286, R296: a receive ends; the consumer decodes its buffer (R289). -/
theorem test_receive :
    (after (agent (.received f1 .idleDetected) busy)).map
      (fun s => (s.env.rx, s.env.mailbox)) = some (f1, some .rxIdle) ∧
    ((after (agent .decodeReceived { busy with env := { busy.env with rx := f2 } })).map (·.T)) =
      some [[0x99, 0x99, 0x99], [0x07], [0x01, 0x02, 0x03, 0x04]] := by decide +kernel
/-- R296: `start_receive()` answers `Ok` or `Err`. R290: an abort ends the receive; the mailbox is the
callback's. -/
theorem test_receiveDriver :
    (after (agent (.startReceive true) busy)).map (fun s => (s.result, s.env.receiving)) =
      some (.ok, true) ∧
    (after (agent (.startReceive false) busy)).map (fun s => (s.result, s.env.receiving)) =
      some (.receiveError, false) ∧
    (after (agent .abortReceive { busy with env := { busy.env with
      receiving := true, mailbox := some .tickFast } })).map
        (fun s => (s.env.receiving, s.env.mailbox)) = some (false, some .tickFast) := by
  decide +kernel
/-- R298: the geometry supplied at init. U17: a completed transfer, with and without its notification. -/
theorem test_otherInputs :
    (after (agent (.supplyScreen ⟨1920, 1080⟩) busy)).map (·.env.screen) =
      some (some ⟨1920, 1080⟩) ∧
    [true, false].map (fun n => (after (agent (.transferComplete n) busy)).map
      (·.env.sendComplete)) = [some 1, some 0] := by decide +kernel


/-! ## Witnesses: for each statement with hypotheses, states and operands that meet them

Clause by clause, at the boundaries of each clause's range. A statement of Obligations.lean that is not
named here has no hypotheses. -/

/-- The invariant from its parts, each of which evaluates. -/
theorem inv_of (s : State) (h1 : s.cfg.WF) (h2 : s.T.map List.length = s.cfg.cmdTable.map CmdRow.size)
    (h3 : s.dropcnt < 2 ^ s.cfg.dropcntW)
    (h4 : s.gq.length ≤ s.cfg.capG ∧ ∀ e ∈ s.gq, e.length = s.cfg.graphicBytes)
    (h5 : s.lq.length ≤ s.cfg.capL ∧ ∀ e ∈ s.lq, e.length = s.cfg.labelBytes)
    (h6 : s.dq.length ≤ s.cfg.capD ∧ ∀ e ∈ s.dq, e.length = s.cfg.deleteBytes)
    (h7 : s.txb.length ≤ s.cfg.txbMax) (h8 : s.activity.inBounds s.cfg) : s.Inv :=
  ⟨h1, h2, h3, fun q => by cases q; exacts [h4, h5, h6], h7, h8⟩

theorem wf_cfgT : Config.cfgT.WF := by decide +kernel
theorem wf_cfgAll : cfgAll.WF ∧ cfgAll.subIds.Nodup := by decide +kernel
theorem inv_busy : busy.Inv := by
  apply inv_of <;> trivial
theorem inv_scanning : (scanning f1 12).Inv := by
  apply inv_of <;> first | exact ⟨by decide, by decide⟩ | decide +kernel
theorem inv_framing : (framing 1).Inv := by
  apply inv_of <;> trivial
/-- Queues, counter and transmit buffer at their bounds. -/
def full : State :=
  { busy with
    gq := List.replicate 8 (g 1)
    lq := List.replicate 7 lab
    dq := [del, del]
    dropcnt := 2 ^ 32 - 1
    txb := v64 }
theorem inv_full : full.Inv := by
  apply inv_of <;> trivial

theorem witness_StepRunsTheOldestTransaction :
    (given [.command 0x4 [1, 3]]).cfg.WF ∧ (given [.command 0x4 [1, 3]]).activity = .idle ∧
    (decode Config.cfgT (.port 0x4 [1, 3])).toOption = some (.pushDelete [1, 3]) ∧
    (given [.agent .take]).inputs = .agent .take :: [] := by decide +kernel
theorem witness_StepRunsTheWireInstructionAtTheCursor :
    (scanning (f1 ++ f2) 12).cfg.WF ∧ (scanning fUnk 0).activity = .scanning fUnk 0 ∧
    decodeWire Config.cfgT ((f1 ++ f2).drop 12) =
      .frame ⟨0x0002, .gameResult, 1⟩ ⟨1, 0, [0x07], 0xB411⟩ ∧
    decodeWire Config.cfgT (fUnk.drop 0) = .unknown 1 0 0x0999 ∧
    (scanning (f1 ++ f2) 12).activity = .scanning (f1 ++ f2) 12 := by decide +kernel
/-- `PACK` states with a delete, with `n` graphics, with a label, with nothing. -/
def pending (n : Nat) (lq : List Bytes) : State :=
  { framing 1 with dq := [], gq := List.replicate n (g 1), lq := lq }
theorem witness_StepRunsTheSelectedFrame :
    (framing 1).cfg.WF ∧ (framing 1).activity = .framing 1 ∧ (pending 1 [lab]).dq = [] ∧
    (framing 1).dq = del :: [] ∧ Config.cfgT.subIds.Nodup ∧
    (pending 1 [lab]).gq ≠ [] ∧ (pending 0 [lab]).lq = lab :: [] ∧ (pending 0 []).lq = [] := by
  decide +kernel
theorem witness_batchRows (c : Cfg) :
    BatchRow c 1 1 (c.subId .draw1) ∧ BatchRow c 2 2 (c.subId .draw2) ∧
    BatchRow c 3 5 (c.subId .draw5) ∧ BatchRow c 5 5 (c.subId .draw5) ∧
    BatchRow c 6 7 (c.subId .draw7) ∧ BatchRow c 7 7 (c.subId .draw7) ∧
    BatchRow c 8 7 (c.subId .draw7) := by
  simp [BatchRow, Cfg.subId]
theorem witness_ResetRestoresEveryItem : cfgT0.WF := by decide +kernel
theorem witness_ReadPortsCopyState :
    busy.Inv ∧ busy.T[(2 : Half).toNat]? = some [1, 2, 3, 4] ∧
    busy.cfg.cmdTable[2]? = some ⟨0x0201, .robotStatus, 4⟩ :=
  ⟨inv_busy, by decide +kernel⟩
theorem witness_ReadFieldOutOfRangeFaults :
    busy.Inv ∧ busy.cfg.ncmd ≤ (3 : Half).toNat ∧ busy.cfg.ncmd ≤ (0xFFFF : Half).toNat :=
  ⟨inv_busy, by decide +kernel⟩
theorem witness_GraphicCountIsWithinCapacity : full.Inv ∧ full.gq.length = full.cfg.capG :=
  ⟨inv_full, by decide +kernel⟩
theorem witness_OutsideTheContractIsRefused :
    busy.cfg.rxbufMax < (zeros 257).length ∧
    (given [.overlapping 0xD [] 0xE []]).cfg.WF ∧
    (given [.overlapping 0xD [] 0xE []]).activity = .idle ∧
    (given [.overlapping 0xD [] 0xE []]).inputs = .overlapping 0xD [] 0xE [] :: [] ∧
    ¬ ({ Config.cfgT with capG := 2 } : Cfg).WF := by decide +kernel
theorem witness_IllFormedTermsAreRefused :
    (zeros 14).length ≠ busy.cfg.graphicBytes ∧ (zeros 46).length ≠ busy.cfg.labelBytes ∧
    (zeros 1).length ≠ busy.cfg.deleteBytes ∧ busy.cfg.rowOf .robotHp = none ∧
    busy.cfg.rowOf .gameResult = some ⟨0x0002, .gameResult, 1⟩ ∧ (zeros 0).length ≠ 1 := by
  decide +kernel
theorem witness_DecodeInvertsEncode :
    cfgAll.WF ∧ cfgAll.subIds.Nodup ∧
    (Instr.fOther 15 ⟨0xFFFF, 0xFF, [0], 0⟩).wellFormed cfgAll = true ∧
    (Instr.decode (zeros 256)).wellFormed cfgAll = true ∧
    (Instr.readField 15).wellFormed cfgAll = true ∧
    (Instr.uiDraw7 0xFFFF (zeros 105)).wellFormed cfgAll = true := by decide +kernel
theorem witness_EncodeInvertsDecode :
    Config.cfgT.WF ∧ dec (.port 0x1 []) = some (.decode []) ∧ (dec (.inbound f1)).isSome ∧
    (dec (.outbound v64)).isSome := by decide +kernel
/-- Steps that answer, from between operations, inside a scan and inside a `PACK`. -/
theorem witness_StepKeepsTheInvariant :
    (given [.command 0x9 [1, 0]]).Inv ∧ (after (step (given [.command 0x9 [1, 0]]))).isSome ∧
    (scanning f1 12).Inv ∧ (after (step (scanning f1 12))).isSome ∧
    (framing 1).Inv ∧ (after (step (framing 1))).isSome := by
  refine ⟨inv_busy.withInputs _, by decide +kernel, inv_scanning, by decide +kernel, inv_framing,
    by decide +kernel⟩
theorem witness_StepEndsBetweenOperations :
    (given [.command 0x1 f1]).Idle ∧ (after (step (given [.command 0x1 f1]))).isSome := by
  decide +kernel
theorem witness_ConfigurationNeverChanges :
    (after (exec (.decode f1) busy)).isSome ∧ (after (step busy)).isSome := by decide +kernel
theorem witness_OnlyDecodeAndResetWriteTelemetry :
    (after (exec (.pack 1) busy)).isSome ∧ (after (exec .setOffline busy)).isSome ∧
    (∀ k f, Instr.pack 1 ≠ Instr.ofField k f) ∧ Instr.pack 1 ≠ .reset ∧
    (∀ rx, Instr.pack 1 ≠ .decode rx) ∧ Instr.pack 1 ≠ .setOffline ∧ Instr.pack 1 ≠ .restart := by
  refine ⟨by decide +kernel, by decide +kernel, fun k f => ?_, by decide, by simp,
    by decide, by decide⟩
  cases k <;> simp [Instr.ofField]
theorem witness_DecodeAndFramingAreIndependent :
    (after (exec (.decode f1) busy)).isSome ∧ (after (exec (.pushGraphic (g 2)) busy)).isSome ∧
    (after (exec .popLabel busy)).isSome ∧ (after (exec (.pack 1) busy)).isSome := by
  decide +kernel
theorem witness_PushStoresOrReportsFull :
    (g 1).length = busy.cfg.graphicBytes ∧ lab.length = busy.cfg.labelBytes ∧
    del.length = busy.cfg.deleteBytes ∧ full.gq.length = full.cfg.capG ∧
    busy.gq.length ≠ busy.cfg.capG := by decide +kernel
theorem witness_QueueOperationsTouchOneQueue :
    (after (exec (QueueOp.push .graphics (g 1)).instr full)).isSome ∧
    (after (exec (QueueOp.pop .deletes).instr full)).isSome := by decide +kernel
theorem witness_QueuesAreFifo :
    (full.queue .graphics).length ≤ Queue.graphics.cap full.cfg ∧
    (history .graphics [.push .graphics (g 2), .pop .graphics] busy).1 = [g 2] ∧
    (history .graphics [.push .graphics (g 2), .pop .graphics] busy).2.1 = [g 1] := by
  decide +kernel
theorem witness_RingRefinesTheQueue :
    (⟨[[1], [2], [3]], 2, 3⟩ : Ring).WF ∧ (⟨[[1], [2], [3]], 2, 3⟩ : Ring).push [4] = none ∧
    (⟨[[1], [2], [3]], 2, 0⟩ : Ring).WF ∧ (⟨[[1], [2], [3]], 2, 0⟩ : Ring).pop = none ∧
    ((⟨[[1], [2], [3]], 2, 1⟩ : Ring).push [4]).isSome ∧
    ((⟨[[1], [2], [3]], 2, 2⟩ : Ring).pop).isSome := by decide +kernel
/-- Every variant of `cfgAll` has its row and its register; a payload has the row's size. -/
theorem witness_VariantsUpToPositionCommitOrCount :
    ([.gameStatus, .gameResult, .robotHp, .dartStatus, .fieldEvents, .robotStatus, .powerHeat,
      .position] : List Field).map (fun k => (cfgAll.rowOf k).map CmdRow.size) =
      List.replicate 8 (some 1) ∧
    cfgAll.regOf .gameStatus = some 0 ∧ cfgAll.regOf .position = some 7 := by decide +kernel
theorem witness_VariantsFromBuffsCommitOrCount :
    ([.buffs, .damage, .launcherData, .bulletsRemaining, .rfid, .clientMaps, .keyboardMouse,
      .other 15] : List Field).map (fun k => (cfgAll.rowOf k).map CmdRow.size) =
      List.replicate 8 (some 1) ∧
    cfgAll.regOf .buffs = some 8 ∧ cfgAll.WF ∧
    cfgAll.rowOf (.other 15) = some ⟨0x0305, .other 15, 1⟩ ∧ cfgAll.regOf (.other 15) = some 15 := by
  decide +kernel
/-- R175: the row of `F.OTHER[j]` stands at place `j`. Two unnamed rows in the wrong order are refused,
and so is one whose number is not below `NCMD`. -/
theorem test_otherStandsAtItsNumber :
    ({ cfgAll with cmdTable := cfgAll.cmdTable.take 15 ++ [⟨1, .other 16, 1⟩, ⟨2, .other 15, 1⟩]
                   tReset := List.replicate 17 [0] } : Cfg).wf = false ∧
    ({ cfgAll with cmdTable := cfgAll.cmdTable.take 15 ++ [⟨5, .other 15, 1⟩, ⟨6, .other 16, 1⟩]
                   tReset := List.replicate 17 [0] } : Cfg).wf = true ∧
    ({ Config.cfgT with cmdTable := [⟨1, .other 15, 1⟩], tReset := [[0]] } : Cfg).wf = false := by
  decide +kernel
theorem witness_UnknownIdEndsTheCall :
    (scanning (f1 ++ fUnk) 12).activity = .scanning (f1 ++ fUnk) 12 := by decide +kernel
/-- A byte that is no `SOF`; a `SOF` with a bad header, the last one that has five bytes. -/
theorem witness_ScanSkipsNoise :
    (scanning [0x00, 0xFF] 1).cfg.WF ∧
    (scanning [0x00, 0xFF] 1).activity = .scanning [0x00, 0xFF] 1 ∧
    ([0x00, 0xFF] : Bytes)[1]? = some 0xFF ∧ (0xFF : Byte) ≠ Config.cfgT.sof ∧
    ([0xA5, 0x03, 0x00, 0x00, 0x26] : Bytes)[0]? = some Config.cfgT.sof ∧
    0 + 5 ≤ ([0xA5, 0x03, 0x00, 0x00, 0x26] : Bytes).length ∧
    Config.cfgT.hdrChk (slice [0xA5, 0x03, 0x00, 0x00, 0x26] 0 5) = false := by decide +kernel
/-- The cursor at the end; 4 bytes left; a valid header with 6 bytes left; a frame one byte short. -/
theorem witness_ScanEndsWithTheBuffer :
    (scanning f1 12).cfg.WF ∧ (scanning f1 12).activity = .scanning f1 12 ∧ f1.length ≤ 12 ∧
    (f1.take 4).length < 0 + 5 ∧ (f1.take 4)[0]? = some Config.cfgT.sof ∧
    Config.cfgT.hdrChk (slice (f1.take 6) 0 5) = true ∧ (f1.take 6).length < 0 + 7 ∧
    Config.cfgT.hdrChk (slice (f1.take 11) 0 5) = true ∧ 0 + 7 ≤ (f1.take 11).length ∧
    Config.cfgT.lookup (rd16 (f1.take 11) 5) = some ⟨0x0001, .gameStatus, 3⟩ ∧
    (f1.take 11).length < 0 + 9 + 3 := by decide +kernel
/-- A whole frame at the end of its buffer, with a right trailer and with a wrong one. -/
theorem witness_ScanRunsWholeFrames :
    (scanning (f1 ++ f2) 12).cfg.WF ∧
    (scanning (f1 ++ f2) 12).activity = .scanning (f1 ++ f2) 12 ∧
    Config.cfgT.hdrChk (slice (f1 ++ f2) 12 5) = true ∧
    Config.cfgT.lookup (rd16 (f1 ++ f2) 17) = some ⟨0x0002, .gameResult, 1⟩ ∧
    Config.cfgT.regOf .gameResult = some 1 ∧ 12 + 9 + 1 ≤ (f1 ++ f2).length ∧
    Config.cfgT.frmChk (slice (f1 ++ f2) 12 10) = true ∧
    Config.cfgT.frmChk (slice (f1 ++ f2p) 12 10) = false := by decide +kernel
theorem witness_ScanAbortsAtAnUnknownId :
    (scanning (fUnk.take 7) 0).cfg.WF ∧
    (scanning (fUnk.take 7) 0).activity = .scanning (fUnk.take 7) 0 ∧
    Config.cfgT.hdrChk (slice (fUnk.take 7) 0 5) = true ∧ 0 + 7 ≤ (fUnk.take 7).length ∧
    Config.cfgT.lookup (rd16 (fUnk.take 7) 5) = none := by decide +kernel
theorem witness_DecodeIsAFunctionOfTheBuffer :
    Config.cfgT.WF ∧ (zeros 256).length ≤ Config.cfgT.rxbufMax ∧
    ([] : Bytes).length ≤ Config.cfgT.rxbufMax ∧ busy.cfg = Config.cfgT := by decide +kernel
theorem witness_DecodeIsItsLoopRunToTheEnd :
    busy.cfg.WF ∧ (f1 ++ f2).length ≤ busy.cfg.rxbufMax := by decide +kernel
theorem witness_DecodeCommitsAValidFrame :
    busy.cfg.WF ∧ busy.cfg.lookup 0x0201 = some ⟨0x0201, .robotStatus, 4⟩ ∧
    busy.cfg.regOf .robotStatus = some 2 ∧ (zeros 4).length = 4 ∧ 9 + 4 ≤ busy.cfg.rxbufMax := by
  decide +kernel
theorem witness_DecodeDropsABadFrame :
    busy.cfg.WF ∧ ([0x06] : Bytes).length = 1 ∧ 9 + 1 ≤ busy.cfg.rxbufMax ∧
    busy.cfg.lookup 0x0002 = some ⟨0x0002, .gameResult, 1⟩ ∧
    busy.cfg.frmChk (busy.cfg.frameBytes 0x0002 ⟨1, 0, [0x06], 0xB411⟩) = false := by
  decide +kernel
/-- Two frames with noise around them. -/
def items : List Item :=
  [⟨[0x00], ⟨0x0001, .gameStatus, 3⟩, ⟨3, 0, [0x11, 0x22, 0x33], 0x865F⟩⟩,
   ⟨[], ⟨0x0002, .gameResult, 1⟩, ⟨1, 0, [0x06], 0xB411⟩⟩]
theorem witness_items : ∀ it ∈ items, it.Fits busy.cfg := by
  unfold Item.Fits
  decide +kernel
theorem witness_DecodeProcessesFramesInOrder :
    busy.cfg.WF ∧ render busy.cfg items = [0x00] ++ f1 ++ f2p ∧ (∀ b ∈ ([0xFF] : Bytes), b ≠ busy.cfg.sof) ∧
    (render busy.cfg items ++ [0xFF]).length ≤ busy.cfg.rxbufMax := by decide +kernel
theorem witness_DecodeAbortKeepsEarlierCommits :
    busy.cfg.WF ∧ busy.cfg.lookup 0x0999 = none ∧ (∀ b ∈ ([0xFF] : Bytes), b ≠ busy.cfg.sof) ∧
    (render busy.cfg items ++ [0xFF] ++ busy.cfg.hdrGen 1 0 ++ le16 0x0999 ++ f3).length ≤
      busy.cfg.rxbufMax := by decide +kernel
theorem witness_LeadingNoiseIsSkipped :
    busy.cfg.WF ∧ (∀ b ∈ ([0x00, 0xFF] : Bytes), b ≠ busy.cfg.sof) ∧
    ([0x00, 0xFF] ++ fUnk).length ≤ busy.cfg.rxbufMax ∧
    (after (exec (.decode fUnk) busy)).isSome := by decide +kernel
theorem witness_TelemetryComesFromValidatedFrames :
    busy.cfg.WF ∧ (after (exec (.decode (f1 ++ f2p)) busy)).isSome := by decide +kernel
theorem witness_DecodingTwiceIsDecodingOnce :
    busy.cfg.WF ∧ ((after (exec (.decode f1) busy)).bind fun t => after (exec (.decode f1) t)).isSome := by
  decide +kernel
theorem witness_GeneratedHeadersAndFramesPass : 7 ≤ (f1.take 7).length := by decide +kernel
theorem witness_ReceiverAdds256 :
    (101 : Half).toNat > 100 ∧ (100 : Half).toNat ≤ 100 := by decide +kernel
theorem witness_PackFramesTheOldestDelete : busy.dq = del :: [] := by decide +kernel
theorem witness_PackFramesABatch :
    (pending 8 [lab]).dq = [] ∧ (pending 8 [lab]).gq.length = 8 := by decide +kernel
theorem witness_PackFramesTheOldestLabel :
    (pending 0 [lab]).dq = [] ∧ (pending 0 [lab]).gq = [] ∧ (pending 0 [lab]).lq = lab :: [] := by
  decide +kernel
theorem witness_PackReportsNothingPending :
    (pending 0 []).dq = [] ∧ (pending 0 []).gq = [] ∧ (pending 0 []).lq = [] ∧
    resultOf (exec (.pack 1) (pending 0 [])) = some .nothingPending := by decide +kernel
theorem witness_UiFramesTakeWhatTheyFrame :
    busy.dq = del :: [] ∧ busy.lq = lab :: [] ∧ busy.gq ≠ [] ∧
    g 1 = slots busy.cfg 1 busy.gq ∧ g 1 ++ zeros 15 = slots busy.cfg 2 busy.gq ∧
    g 1 ++ zeros 60 = slots busy.cfg 5 busy.gq ∧ g 1 ++ zeros 90 = slots busy.cfg 7 busy.gq := by
  decide +kernel
theorem witness_UiFramesOfOtherBodiesLeaveTheQueues :
    busy.dq.head? ≠ some [2, 4] ∧ State.reset.dq.head? ≠ some del ∧
    busy.lq.head? ≠ some (zeros 45) ∧ g 2 ≠ slots busy.cfg 1 busy.gq ∧ State.reset.gq = [] := by
  decide +kernel
theorem witness_PackedFramesAreWellFormed :
    busy.Inv ∧ resultOf (exec (.pack 1) busy) = some (.frame v66) :=
  ⟨inv_busy, by decide +kernel⟩
theorem witness_DrainingFollowsThePriority :
    full.dq.length + (full.gq.length + 6) / 7 + full.lq.length < 12 ∧
    State.reset.dq.length + (State.reset.gq.length + 6) / 7 + State.reset.lq.length < 1 := by
  decide +kernel
/-- CFG_T with a row for the outer command id, of the size of a delete frame's payload. -/
def cfgLoop : Cfg :=
  { Config.cfgT with
    cmdTable := [⟨0x0301, .clientMaps, 8⟩]
    tReset := [zeros 8] }
theorem witness_LoopBackOfADeleteFrame :
    cfgLoop.WF ∧ ({ busy with cfg := cfgLoop } : State).dq = del :: [] ∧
    15 + del.length ≤ cfgLoop.rxbufMax ∧ cfgLoop.regOf .clientMaps = some 0 ∧
    cfgLoop.lookup cfgLoop.outerCmdId = some ⟨0x0301, .clientMaps, 6 + del.length⟩ ∧
    6 + del.length = 8 ∧ busy.cfg.WF ∧ 15 + del.length ≤ busy.cfg.rxbufMax ∧
    (after (exec (.pack 1) busy)).isSome ∧
    (after (exec (.pack 1) { busy with cfg := cfgLoop })).isSome ∧
    busy.cfg.lookup busy.cfg.outerCmdId = none := by decide +kernel
theorem witness_FastTickStagesThePhase :
    busy.gq.length ≤ busy.cfg.capG ∧ full.gq.length ≤ full.cfg.capG := by decide +kernel
theorem witness_FastTicksVisitThePhasesInTurn :
    (ticking 4 .add).env.phase.toNat < 5 ∧ ([modes] : List ModeSnapshot) ≠ [] := by decide +kernel
theorem witness_SlowTickStagesTheBundle :
    full.gq.length ≤ full.cfg.capG ∧ full.lq.length ≤ full.cfg.capL := by decide +kernel
theorem witness_MailboxHoldsTheLastPost :
    ({ busy with env := { busy.env with mailbox := some .rxIdle } } : State).env.mailbox =
      some .rxIdle ∧ busy.env.mailbox = none := by decide +kernel
theorem witness_AgentsReachTheBlockThroughItsQueues :
    AgentOp.slowTick ≠ .decodeReceived ∧ (after (agent .slowTick busy)).isSome := by decide +kernel

end Sys2Proof.Tests
end

/-! Proofs of the statements on the architectural state (10_state.md): the read ports. -/

namespace Sys2Proof.Machine

open Sys2Proof

/-- Row by row reading of the invariant's bank clause (R20). -/
theorem State.Inv.register_of_row {s : State} (h : s.Inv) {k : Nat} {row : CmdRow}
    (hrow : s.cfg.cmdTable[k]? = some row) : ∃ b, s.T[k]? = some b ∧ b.length = row.size := by
  have hsize : (s.T.map List.length)[k]? = some row.size := by
    rw [h.bank, List.getElem?_map, hrow, Option.map_some]
  rwa [List.getElem?_map, Option.map_eq_some_iff] at hsize

theorem exec_readField_of_register {s : State} {k : Half} {b : Bytes}
    (hb : s.T[k.toNat]? = some b) : exec (.readField k) s = .next (s.answer (.bytes b)) := by
  change execReadField k s = _
  rw [execReadField, hb]

@[simp] theorem exec_readStatus (s : State) :
    exec .readStatus s = .next (s.answer (.status s.status.bit)) := rfl

@[simp] theorem exec_readDropcnt (s : State) :
    exec .readDropcnt s = .next (s.answer (.dropcnt s.dropcnt)) := rfl

@[simp] theorem exec_graphicCount (s : State) :
    exec .graphicCount s = .next (s.answer (.count s.gq.length)) := rfl

/-- Settles O6. The bank clause of the invariant gives the register of each row; each port is its
`exec` law, and `answer` writes the result only. -/
theorem readPortsCopyState : Obligations.ReadPortsCopyState := by
  intro s
  refine ⟨?readField, ?registers, ?readStatus, ?readDropcnt, ?graphicCount⟩
  case readField => exact fun _ _ hb => exec_readField_of_register hb
  case registers => exact fun hinv _ _ hrow => hinv.register_of_row hrow
  case readStatus => exact exec_readStatus s
  case readDropcnt => exact exec_readDropcnt s
  case graphicCount => exact exec_graphicCount s

end Sys2Proof.Machine

/-! Proofs of the statements on the encodings (30_encoding.md): the layout of a frame, and of the UI frame
as the frame with the outer command id whose payload is sub-header and body. -/

namespace Sys2Proof.Cfg

section FrameBytes

variable (c : Cfg) (id : Half) (f : WireFrame)

/-- The parts of a frame one after the other, associated so that each field stands at the head of the
rest (R80). -/
theorem frameBytes_eq_append : c.frameBytes id f =
    c.hdrGen f.dataLength f.seq ++ (le16 id ++ (f.payload ++ le16 f.trailer)) := by
  simp [frameBytes, framePre]

theorem take_five_frameBytes : (c.frameBytes id f).take 5 = c.hdrGen f.dataLength f.seq := by
  rw [frameBytes_eq_append]
  exact List.take_left' rfl

@[simp] theorem getD_zero_frameBytes : (c.frameBytes id f).getD 0 0 = c.sof := rfl

@[simp] theorem getD_three_frameBytes : (c.frameBytes id f).getD 3 0 = f.seq := rfl

@[simp] theorem rd16_one_frameBytes : rd16 (c.frameBytes id f) 1 = f.dataLength :=
  extract_append f.dataLength

@[simp] theorem rd16_five_frameBytes : rd16 (c.frameBytes id f) 5 = id := by
  rw [frameBytes_eq_append]
  exact rd16_append_le16 _ _ id 5 rfl

/-- A 16-bit field of the payload stands 7 bytes further in the frame. -/
theorem rd16_frameBytes_payload {i : Nat} (hi : i + 1 < f.payload.length) :
    rd16 (c.frameBytes id f) (7 + i) = rd16 f.payload i := by
  rw [frameBytes_eq_append, ← List.append_assoc, rd16_append_right _ _ i 7 rfl,
    rd16_append_left _ _ i hi]

/-- A byte range of the payload stands 7 bytes further in the frame. -/
theorem slice_frameBytes_payload {i n : Nat} (hn : i + n ≤ f.payload.length) :
    slice (c.frameBytes id f) (7 + i) n = slice f.payload i n := by
  rw [frameBytes_eq_append, ← List.append_assoc, slice_append_right _ _ i n 7 rfl, slice, slice,
    List.drop_append_of_le_length (by omega), List.take_append_of_le_length (by simp; omega)]

theorem take_frameBytes {n : Nat} (hn : n = 7 + f.payload.length) :
    (c.frameBytes id f).take n = c.framePre id f.dataLength f.seq f.payload :=
  List.take_left' (by rw [framePre_length, hn])

theorem rd16_frameBytes_trailer {n : Nat} (hn : n = 7 + f.payload.length) :
    rd16 (c.frameBytes id f) n = f.trailer := by
  have h := rd16_append_le16 (c.framePre id f.dataLength f.seq f.payload) [] f.trailer n
    (by rw [framePre_length, hn])
  rwa [List.append_nil] at h

end FrameBytes

/-- The payload of an outbound frame: the sub-header and the body (R90). -/
def uiPayload (sub sender : Half) (body : Bytes) : Bytes :=
  le16 sub ++ (le16 sender ++ (le16 (receiver sender) ++ body))

section UiPayload

variable (sub sender : Half) (body : Bytes)

@[simp] theorem uiPayload_length : (uiPayload sub sender body).length = 6 + body.length := by
  simp [uiPayload]; omega

@[simp] theorem rd16_zero_uiPayload : rd16 (uiPayload sub sender body) 0 = sub :=
  rd16_append_le16 [] _ sub 0 rfl

@[simp] theorem rd16_two_uiPayload : rd16 (uiPayload sub sender body) 2 = sender :=
  rd16_append_le16 (le16 sub) _ sender 2 rfl

@[simp] theorem rd16_four_uiPayload : rd16 (uiPayload sub sender body) 4 = receiver sender :=
  rd16_append_le16 (le16 sub ++ le16 sender) body (receiver sender) 4 rfl

@[simp] theorem slice_six_uiPayload : slice (uiPayload sub sender body) 6 body.length = body :=
  List.take_length

/-- The fields of an outbound frame: `data_length` counts the payload, `seq` is 0, the trailer is the
checksum of everything before it (R230, R231, R233). -/
def uiWire (c : Cfg) : WireFrame where
  dataLength := uiDataLength body
  seq := 0
  payload := uiPayload sub sender body
  trailer := c.crc16 (c.framePre c.outerCmdId (uiDataLength body) 0 (uiPayload sub sender body))

/-- An outbound frame has the layout of R80, with the outer command id (R90, R232). -/
theorem uiFrame_eq_frameBytes (c : Cfg) :
    c.uiFrame sub sender body = c.frameBytes c.outerCmdId (uiWire sub sender body c) := by
  have h : c.uiFrame sub sender body =
      c.framed c.outerCmdId (uiDataLength body) 0 (uiPayload sub sender body) := by
    simp [uiFrame, framed, framePre, uiPayload]
  rw [h, framed_eq, uiWire]

end UiPayload

end Sys2Proof.Cfg

namespace Sys2Proof.Machine

open Sys2Proof

/-- Settles O44. The UI frame is the `frameBytes` of `uiWire`, whose fields the lemmas above read; the four
parts of its payload stand at 0, 2, 4 and 6 in it, hence at 7, 9, 11 and 13 in the frame. -/
theorem uiFrameLayout : Obligations.UiFrameLayout := by
  intro c sub sender body fr dl
  generalize hf : Cfg.uiWire sub sender body c = f
  have hfr : fr = c.frameBytes c.outerCmdId f := hf ▸ Cfg.uiFrame_eq_frameBytes sub sender body c
  have hpayload : f.payload = Cfg.uiPayload sub sender body := by rw [← hf]; rfl
  have hsize : f.payload.length = 6 + body.length := by rw [hpayload, Cfg.uiPayload_length]
  have htrailer : 13 + body.length = 7 + f.payload.length := by omega
  refine ⟨Cfg.uiFrame_length c sub sender body, ?_⟩
  rw [hfr]
  refine ⟨?header, ?sof, ?dataLength, ?seq, ?outerCmdId, ?subId, ?senderId, ?receiverId,
    ?uiBody, ?trailer⟩
  case header => rw [Cfg.take_five_frameBytes, ← hf]; rfl
  case sof => exact Cfg.getD_zero_frameBytes c _ f
  case dataLength => rw [Cfg.rd16_one_frameBytes, ← hf]; rfl
  case seq => rw [Cfg.getD_three_frameBytes, ← hf]; rfl
  case outerCmdId => exact Cfg.rd16_five_frameBytes c _ f
  case subId =>
    rw [Cfg.rd16_frameBytes_payload c _ f (i := 0) (by omega), hpayload, Cfg.rd16_zero_uiPayload]
  case senderId =>
    rw [Cfg.rd16_frameBytes_payload c _ f (i := 2) (by omega), hpayload, Cfg.rd16_two_uiPayload]
  case receiverId =>
    rw [Cfg.rd16_frameBytes_payload c _ f (i := 4) (by omega), hpayload, Cfg.rd16_four_uiPayload]
  case uiBody =>
    rw [Cfg.slice_frameBytes_payload c _ f (i := 6) (by omega), hpayload, Cfg.slice_six_uiPayload]
  case trailer =>
    rw [Cfg.take_frameBytes c _ f htrailer, Cfg.rd16_frameBytes_trailer c _ f htrailer, ← hf]; rfl

end Sys2Proof.Machine

/-! Proofs of the statements on the wire instructions (41_demux_decode.md R160 to R175): the template once,
for every variant. -/

namespace Sys2Proof.Cfg

/-- A well-formed table numbers an unnamed row by the place it stands at, from 15 on (R175). -/
theorem regOf_other {c : Cfg} (hw : c.WF) {j : Nat} {row : CmdRow}
    (hrow : c.rowOf (.other j) = some row) :
    c.regOf (.other j) = some j ∧ 15 ≤ j ∧ j < c.ncmd := by
  obtain ⟨reg, hreg, hplace⟩ := Cfg.regOf_some hrow
  obtain ⟨-, hfield⟩ := Cfg.rowOf_some hrow
  obtain ⟨-, -, hnumbers, -⟩ := hw
  have hstands := hnumbers (row, reg) (List.mem_zipIdx_iff_getElem?.mpr hplace)
  rw [hfield] at hstands
  obtain ⟨h15, rfl⟩ : 15 ≤ j ∧ j = reg := of_decide_eq_true hstands
  obtain ⟨hlt, -⟩ := List.getElem?_eq_some_iff.mp hplace
  exact ⟨hreg, h15, hlt⟩

end Sys2Proof.Cfg

namespace Sys2Proof.Machine

open Sys2Proof Sys2Proof.Claims

/-- `advance` writes the activity and nothing else (R24). -/
theorem State.advance_eq_moved (s : State) (n : Nat) :
    s.advance n = { s with activity := moved n s.activity } := by
  cases h : s.activity <;> simp [State.advance, moved, h]

/-- The template of R160 to R175 for a frame of a variant that has a row: the trailer decides. -/
theorem wireFrame_of_fits {k : Field} {f : WireFrame} {s : State} {row : CmdRow} {reg : Nat}
    (hrow : s.cfg.rowOf k = some row) (hreg : s.cfg.regOf k = some reg)
    (hsize : f.payload.length = row.size) :
    wireFrame k f s = .next (
      if s.cfg.frmChk (s.cfg.frameBytes row.id f) then
        (s.commit reg f.payload).advance (span row.size)
      else s.countDrop.advance (span row.size)) := by
  simp only [wireFrame, hrow, hreg, hsize, ne_eq, not_true_eq_false, if_false]
  split <;> rfl

/-- Each wire instruction is the template with its own destination, so one proof serves them all. -/
theorem commitsOrCounts_ofField (k : Field) : CommitsOrCounts (Instr.ofField k) k := by
  intro s f row reg hrow hreg hsize
  rw [exec_ofField, runWire_eq, wireFrame_of_fits hrow hreg hsize, Cfg.frmChk_frameBytes]
  simp only [State.advance_eq_moved, beq_iff_eq]
  rfl

/-- Settles O26: each of the eight is the wire instruction of its variant. -/
theorem variantsUpToPositionCommitOrCount : Obligations.VariantsUpToPositionCommitOrCount :=
  ⟨commitsOrCounts_ofField .gameStatus, commitsOrCounts_ofField .gameResult,
    commitsOrCounts_ofField .robotHp, commitsOrCounts_ofField .dartStatus,
    commitsOrCounts_ofField .fieldEvents, commitsOrCounts_ofField .robotStatus,
    commitsOrCounts_ofField .powerHeat, commitsOrCounts_ofField .position⟩

/-- Settles O27: the other seven and `F.OTHER[j]` as well, and `Cfg.regOf_other` gives the last
clause. -/
theorem variantsFromBuffsCommitOrCount : Obligations.VariantsFromBuffsCommitOrCount :=
  ⟨commitsOrCounts_ofField .buffs, commitsOrCounts_ofField .damage,
    commitsOrCounts_ofField .launcherData, commitsOrCounts_ofField .bulletsRemaining,
    commitsOrCounts_ofField .rfid, commitsOrCounts_ofField .clientMaps,
    commitsOrCounts_ofField .keyboardMouse, fun j => commitsOrCounts_ofField (.other j),
    fun _ _ _ hw hrow => Cfg.regOf_other hw hrow⟩

end Sys2Proof.Machine

/-! Proofs of the statements on one turn of the scan (41_demux_decode.md R142 to R153): what the decoder
reads where no frame is whole, and the step that each reading gives. -/

namespace Sys2Proof

/-- The buffer from an index on begins with the byte at that index. -/
theorem drop_eq_cons_of_getElem? {b : Bytes} {i : Nat} {x : Byte} (h : b[i]? = some x) :
    b.drop i = x :: b.drop (i + 1) := by
  obtain ⟨hlt, rfl⟩ := List.getElem?_eq_some_iff.mp h
  exact List.drop_eq_getElem_cons hlt

section DecodeWireEnds

variable {c : Cfg} {b bs : Bytes}

theorem decodeWire_headerCut (hsof : b = c.sof :: bs) (hl : b.length < 5) :
    decodeWire c b = .headerCut := by
  subst hsof
  simp only [decodeWire, ne_eq, not_true_eq_false, if_false, if_pos hl]

theorem decodeWire_headerBad (hsof : b = c.sof :: bs) (hl : 5 ≤ b.length)
    (hc : c.hdrChk (b.take 5) = false) : decodeWire c b = .headerBad := by
  subst hsof
  simp only [decodeWire, ne_eq, not_true_eq_false, if_false, if_neg hl.not_gt, if_pos hc]

/-- `HDRCHK` takes five bytes (R122). -/
theorem five_le_length_of_hdrChk (hc : c.hdrChk (b.take 5) = true) : 5 ≤ b.length := by
  simp only [Cfg.hdrChk, Bool.and_eq_true, decide_eq_true_eq, List.length_take] at hc
  omega

theorem decodeWire_idCut (hsof : b = c.sof :: bs) (hc : c.hdrChk (b.take 5) = true)
    (hl : b.length < 7) : decodeWire c b = .idCut := by
  have h5 := five_le_length_of_hdrChk hc
  subst hsof
  simp only [decodeWire, ne_eq, not_true_eq_false, if_false, if_neg h5.not_gt, hc,
    Bool.true_eq_false, if_pos hl]

/-- A valid header with a known id: the span decides whether the frame is whole (R149). -/
theorem decodeWire_of_row {row : CmdRow} (hc : c.hdrChk (b.take 5) = true) (hl : 7 ≤ b.length)
    (hrow : c.lookup (rd16 b 5) = some row) :
    decodeWire c b =
      if b.length < span row.size then .frameCut else .frame row (wireFields b row.size) := by
  rw [decodeWire_of_hdrChk hc hl, hrow]

end DecodeWireEnds

end Sys2Proof

namespace Sys2Proof.Machine

open Sys2Proof Sys2Proof.Claims

/-- The state inside a scan of `rx` at `cur`, everything else as it is (R24). -/
def State.scanningAt (rx : Bytes) (cur : Nat) (s : State) : State :=
  { s with activity := .scanning rx cur }

@[simp] theorem State.scanningAt_cfg (rx : Bytes) (cur : Nat) (s : State) :
    (s.scanningAt rx cur).cfg = s.cfg := rfl

theorem State.eq_scanningAt {s : State} {rx : Bytes} {cur : Nat}
    (ha : s.activity = .scanning rx cur) : s = s.scanningAt rx cur := by
  rw [State.scanningAt, ← ha]

/-- A step inside a scan, by what the decoder reads at the cursor (R140, in the order of R321). -/
theorem step_scanningAt {s : State} (rx : Bytes) (cur : Nat) (hw : s.cfg.WF) :
    step (s.scanningAt rx cur) =
      match decodeWire s.cfg (rx.drop cur) with
      | .exhausted => .next (ended .ok s)
      | .skip => .next (s.scanningAt rx (cur + 1))
      | .headerCut => .next (ended .ok s)
      | .headerBad => .next (s.scanningAt rx (cur + 1))
      | .idCut => .next (ended .ok s)
      | .unknown _ _ id => .next (ended (.errUnknownCmd id cur) s)
      | .frameCut => .next (ended .ok s.countDrop)
      | .frame row f => runWire row.field f (s.scanningAt rx cur) := by
  have hstep : step (s.scanningAt rx cur) =
      runFetched (fetchWire (rx.drop cur) (s.scanningAt rx cur)) := step_of_wf _ hw
  rw [hstep, fetchWire, scanTurn_eq, State.scanningAt_cfg]
  cases decodeWire s.cfg (rx.drop cur) with
  | frame row f => exact exec_ofField row.field f _
  | _ => rfl

/-- Settles O29. The decoder reads `skip` at the one byte and `headerBad` at the other. -/
theorem scanSkipsNoise : Obligations.ScanSkipsNoise := by
  intro s rx cur hw ha
  rw [State.eq_scanningAt ha, step_scanningAt rx cur hw, State.scanningAt_cfg]
  refine ⟨?noise, ?header⟩
  case noise =>
    intro b hb hne
    rw [drop_eq_cons_of_getElem? hb, decodeWire_skip _ hne]
    rfl
  case header =>
    intro h0 hl hc
    rw [decodeWire_headerBad (drop_eq_cons_of_getElem? h0) (by simp; omega) hc]
    rfl

/-- Settles O30. One clause for each reading of the decoder that ends the call with `OK`. -/
theorem scanEndsWithTheBuffer : Obligations.ScanEndsWithTheBuffer := by
  intro s rx cur hw ha
  rw [State.eq_scanningAt ha, step_scanningAt rx cur hw, State.scanningAt_cfg]
  refine ⟨?exhausted, ?header, ?id, ?frame⟩
  case exhausted =>
    intro hl
    rw [List.drop_eq_nil_of_le hl]
    rfl
  case header =>
    intro h0 hl
    rw [decodeWire_headerCut (drop_eq_cons_of_getElem? h0) (by simp; omega)]
    rfl
  case id =>
    intro h0 hc hl
    rw [decodeWire_idCut (drop_eq_cons_of_getElem? h0) hc (by simp; omega)]
    rfl
  case frame =>
    intro row _ hc h7 hrow hl
    rw [decodeWire_of_row hc (by simp; omega) (by rwa [rd16_drop]),
      if_pos (by rw [List.length_drop, span]; omega)]
    rfl

/-- Settles O31. The decoder reads the frame of the row, and `runWire_at` says what that frame does. -/
theorem scanRunsWholeFrames : Obligations.ScanRunsWholeFrames := by
  intro s rx cur row reg hw ha hc hrow hreg hl
  rw [State.eq_scanningAt ha]
  have hd : decodeWire s.cfg (rx.drop cur) = .frame row (wireFields (rx.drop cur) row.size) := by
    rw [decodeWire_of_row hc (by simp; omega) (by rwa [rd16_drop]),
      if_neg (by rw [List.length_drop, span]; omega)]
  obtain ⟨t, hrun, -, reg', hreg', rfl⟩ := runWire_at (s := s.scanningAt rx cur) hw hd
  obtain rfl : reg' = reg := Option.some.inj (hreg'.symm.trans hreg)
  rw [step_scanningAt rx cur hw, hd, Nat.add_assoc]
  exact hrun

end Sys2Proof.Machine

/-! Proofs of the statements on `DECODE` (41_demux_decode.md R140 to R157): the scan of a buffer cut into the
bytes before the cursor and the bytes from it on, one rule for each thing that can stand at the cursor. -/

namespace Sys2Proof.Machine

open Sys2Proof Sys2Proof.Claims

/-- The scan of `pre ++ rest` from the end of `pre` on ends in `r`, with any number of turns above the
bytes left (R154). -/
def ScansTo (pre rest : Bytes) (s r : State) : Prop :=
  ∀ n, rest.length < n → scan n (s.scanningAt (pre ++ rest) pre.length) = .next r

/-- `DECODE` is the scan from the start of its buffer, with `STATUS` at `RUNNING` (R140). -/
theorem exec_decode_of_scansTo {s r : State} {rx : Bytes} (hl : rx.length ≤ s.cfg.rxbufMax)
    (h : ScansTo [] rx (s.setStatus .running) r) : exec (.decode rx) s = .next r := by
  change execDecode rx s = _
  rw [execDecode, if_neg hl.not_gt]
  exact h (rx.length + 1) (Nat.lt_succ_self _)

namespace ScansTo

variable {pre rest : Bytes} {s t r : State} (hw : s.cfg.WF)
include hw

/-- A scan whose next turn ends the call. -/
theorem of_ended {res : Result}
    (hstep : step (s.scanningAt (pre ++ rest) pre.length) = .next (ended res t)) :
    ScansTo pre rest s (ended res t) := by
  intro n hn
  cases n with
  | zero => exact absurd hn (Nat.not_lt_zero _)
  | succ m =>
    rw [scan_succ (s := s.scanningAt (pre ++ rest) pre.length) m hw rfl hstep]
    exact scan_idle m rfl

/-- A scan whose next turn passes the bytes `x` is the scan from behind them, in the state the turn
leaves. -/
theorem of_step {x : Bytes} (hx : x ≠ [])
    (hstep : step (s.scanningAt (pre ++ (x ++ rest)) pre.length) =
      .next (t.scanningAt (pre ++ (x ++ rest)) (pre.length + x.length)))
    (h : ScansTo (pre ++ x) rest t r) : ScansTo pre (x ++ rest) s r := by
  intro n hn
  have hpos : 0 < x.length := List.length_pos_iff.mpr hx
  rw [List.length_append] at hn
  cases n with
  | zero => omega
  | succ m =>
    rw [scan_succ (s := s.scanningAt (pre ++ (x ++ rest)) pre.length) m hw rfl hstep,
      ← List.append_assoc, ← List.length_append]
    exact h m (by omega)

/-- At the end of the buffer (R154). -/
theorem nil : ScansTo pre [] s (ended .ok s) := by
  apply of_ended hw
  rw [step_scanningAt _ _ hw, List.drop_left]
  rfl

/-- At bytes that are no start byte (R142). -/
theorem noise_append {noise : Bytes} (hn : ∀ b ∈ noise, b ≠ s.cfg.sof)
    (h : ScansTo (pre ++ noise) rest s r) : ScansTo pre (noise ++ rest) s r := by
  induction noise generalizing pre with
  | nil => simpa using h
  | cons b bs ih =>
    obtain ⟨hb, hbs⟩ := List.forall_mem_cons.mp hn
    apply of_step hw (x := [b]) (List.cons_ne_nil b [])
    · rw [step_scanningAt _ _ hw, List.drop_left, List.singleton_append, decodeWire_skip _ hb]
      rfl
    · exact ih hbs (by simpa using h)

/-- At bytes that are no start byte, to the end of the buffer (R142, R154). -/
theorem noise (hn : ∀ b ∈ rest, b ≠ s.cfg.sof) : ScansTo pre rest s (ended .ok s) := by
  rw [← List.append_nil rest]
  exact noise_append hw hn (nil hw)

/-- At a valid header with an id without a row (R148). -/
theorem unknown {dl : Half} {seq : Byte} {id : Half} (hid : s.cfg.lookup id = none) :
    ScansTo pre (s.cfg.hdrGen dl seq ++ le16 id ++ rest) s
      (ended (.errUnknownCmd id pre.length) s) := by
  apply of_ended hw
  rw [step_scanningAt _ _ hw, List.drop_left, decodeWire_unknown dl seq rest hid]

end ScansTo

/-- The frame of an item under a well-formed table does what `applyItem` says, and passes its span (R151 to
R153). -/
theorem runWire_item {s : State} {it : Item} (hw : s.cfg.WF) (hit : it.Fits s.cfg) (rx : Bytes)
    (cur : Nat) :
    runWire it.row.field it.frame (s.scanningAt rx cur) =
      .next ((applyItem s it).scanningAt rx (cur + span it.row.size)) := by
  obtain ⟨-, hmem, hsize⟩ := hit
  have hrow := Cfg.rowOf_of_mem hw hmem
  obtain ⟨reg, hreg, -⟩ := Cfg.regOf_some hrow
  rw [runWire_eq, wireFrame_of_fits (s := s.scanningAt rx cur) hrow hreg hsize, applyItem, hreg,
    State.scanningAt_cfg]
  split <;> rfl

@[simp] theorem applyItem_cfg (s : State) (it : Item) : (applyItem s it).cfg = s.cfg := by
  unfold applyItem
  split
  · split <;> rfl
  · rfl

namespace ScansTo

variable {pre rest : Bytes} {s r : State}

/-- At an item: its noise is skipped and its frame processed (R142, R151, R152). -/
theorem item_append {it : Item} (hw : s.cfg.WF) (hit : it.Fits s.cfg)
    (h : ScansTo (pre ++ (it.noise ++ s.cfg.frameBytes it.row.id it.frame)) rest
      (applyItem s it) r) :
    ScansTo pre (it.noise ++ s.cfg.frameBytes it.row.id it.frame ++ rest) s r := by
  have ⟨hnoise, hmem, hsize⟩ := hit
  rw [List.append_assoc]
  apply noise_append hw hnoise
  apply of_step hw (t := applyItem s it)
  · exact List.ne_nil_of_length_pos (by rw [Cfg.frameBytes_length]; omega)
  · rw [step_scanningAt _ _ hw, List.drop_left,
      decodeWire_frameBytes rest (Cfg.lookup_of_mem hw hmem) hsize, Cfg.frameBytes_length, hsize]
    exact runWire_item hw hit _ _
  · rwa [List.append_assoc]

/-- At a list of items: they are processed in the order of the buffer, each on what the ones before it
left (R153, R157). -/
theorem render_append {items : List Item} (hw : s.cfg.WF) (hfits : ∀ it ∈ items, it.Fits s.cfg)
    (h : ScansTo (pre ++ render s.cfg items) rest (items.foldl applyItem s) r) :
    ScansTo pre (render s.cfg items ++ rest) s r := by
  induction items generalizing pre s with
  | nil => simpa [render] using h
  | cons it items ih =>
    obtain ⟨hit, hitems⟩ := List.forall_mem_cons.mp hfits
    have hrender : render s.cfg (it :: items) =
        it.noise ++ s.cfg.frameBytes it.row.id it.frame ++ render (applyItem s it).cfg items := by
      rw [applyItem_cfg]; exact List.flatMap_cons
    rw [hrender, List.append_assoc]
    rw [hrender, ← List.append_assoc] at h
    exact item_append hw hit
      (ih (by rwa [applyItem_cfg]) (by rwa [applyItem_cfg]) h)

end ScansTo

@[simp] theorem foldl_applyItem_cfg (items : List Item) (s : State) :
    (items.foldl applyItem s).cfg = s.cfg := by
  induction items generalizing s with
  | nil => rfl
  | cons it items ih => rw [List.foldl_cons, ih, applyItem_cfg]

/-- `DECODE` of a buffer that begins with items is the scan of the rest on what the items left. -/
theorem exec_decode_render {s r : State} {items : List Item} {rest : Bytes} (hw : s.cfg.WF)
    (hfits : ∀ it ∈ items, it.Fits s.cfg)
    (hl : (render s.cfg items ++ rest).length ≤ s.cfg.rxbufMax)
    (h : ScansTo (render s.cfg items) rest (items.foldl applyItem (s.setStatus .running)) r) :
    exec (.decode (render s.cfg items ++ rest)) s = .next r :=
  exec_decode_of_scansTo hl (ScansTo.render_append (s := s.setStatus .running) hw hfits h)

/-- Settles O37, by the induction over the items in `ScansTo.render_append`: behind them the scan finds no
start byte up to the end of the buffer. -/
theorem decodeProcessesFramesInOrder : Obligations.DecodeProcessesFramesInOrder := by
  intro s items tail hw hfits htail hl
  have hcfg : (items.foldl applyItem (s.setStatus .running)).cfg = s.cfg :=
    foldl_applyItem_cfg items _
  exact exec_decode_render hw hfits hl (ScansTo.noise (hcfg.symm ▸ hw) (hcfg.symm ▸ htail))

/-- Settles O38, by the same induction: behind the items the scan skips the noise, and the header there ends
the call at its own index, whatever follows it. -/
theorem decodeAbortKeepsEarlierCommits : Obligations.DecodeAbortKeepsEarlierCommits := by
  intro s items noise dl seq id rest hw hfits hnoise hid hl
  have hcfg : (items.foldl applyItem (s.setStatus .running)).cfg = s.cfg :=
    foldl_applyItem_cfg items _
  have habort := ScansTo.unknown (pre := render s.cfg items ++ noise) (rest := rest)
    (dl := dl) (seq := seq) (hcfg.symm ▸ hw) (hcfg.symm ▸ hid)
  have hbuffer : render s.cfg items ++ noise ++ s.cfg.hdrGen dl seq ++ le16 id ++ rest =
      render s.cfg items ++ (noise ++ (s.cfg.hdrGen dl seq ++ le16 id ++ rest)) := by
    simp only [List.append_assoc]
  rw [hcfg, List.length_append] at habort
  rw [hbuffer] at hl ⊢
  exact exec_decode_render hw hfits hl
    (ScansTo.noise_append (hcfg.symm ▸ hw) (hcfg.symm ▸ hnoise) habort)

/-- `DECODE` of one whole frame and nothing else: the frame is an item without noise. -/
theorem exec_decode_frameBytes {s : State} {row : CmdRow} {f : WireFrame} (hw : s.cfg.WF)
    (hmem : row ∈ s.cfg.cmdTable) (hsize : f.payload.length = row.size)
    (hl : 9 + row.size ≤ s.cfg.rxbufMax) :
    exec (.decode (s.cfg.frameBytes row.id f)) s =
      .next (ended .ok (applyItem (s.setStatus .running) ⟨[], row, f⟩)) := by
  have hfits : Item.Fits s.cfg ⟨[], row, f⟩ := ⟨by simp, hmem, hsize⟩
  have hbuffer : render s.cfg [⟨[], row, f⟩] ++ [] = s.cfg.frameBytes row.id f := by
    simp [render]
  have hdecode := decodeProcessesFramesInOrder s [⟨[], row, f⟩] [] hw
    (List.forall_mem_singleton.mpr hfits) (by simp)
    (by rwa [hbuffer, Cfg.frameBytes_length, hsize])
  rwa [hbuffer] at hdecode

/-- A frame with a right trailer is committed, whatever else it carries (R151, R155). -/
theorem applyItem_of_frmChk {s : State} {it : Item} {reg : Nat}
    (hchk : s.cfg.frmChk (s.cfg.frameBytes it.row.id it.frame) = true)
    (hreg : s.cfg.regOf it.row.field = some reg) :
    applyItem s it = s.commit reg it.frame.payload := by
  rw [applyItem, if_pos hchk, hreg]
  rfl

/-- Settles O35. The frame is the one whose trailer is the checksum, so its item is committed. -/
theorem decodeCommitsAValidFrame : Obligations.DecodeCommitsAValidFrame := by
  intro s id dl seq p row reg hw hrow hreg hsize hl
  obtain ⟨hmem, rfl⟩ := Cfg.lookup_some hrow
  rw [Cfg.framed_eq, exec_decode_frameBytes hw hmem hsize hl,
    applyItem_of_frmChk (by simp [Cfg.frmChk_frameBytes]) hreg]
  rfl

end Sys2Proof.Machine

/-! Proofs of the statements on the staging queues (42_staging_queue.md R191 to R198): the push and the pop
once for every queue, each an equation, then what they may write. -/

namespace Sys2Proof.Machine

open Sys2Proof Sys2Proof.Claims

/-- The push instruction of a queue is the one push, on that queue (R191 to R193). -/
theorem exec_pushOf (q : Queue) (e : Bytes) (s : State) : exec (pushOf q e) s = push q e s := by
  cases q <;> rfl

/-- The pop instruction of a queue is the one pop, on that queue (R194 to R196). -/
theorem exec_popOf (q : Queue) (s : State) : exec (popOf q) s = pop q s := by
  cases q <;> rfl

/-- Writing back what a queue holds changes nothing. -/
@[simp] theorem State.setQueue_queue (s : State) (q : Queue) : s.setQueue q (s.queue q) = s := by
  cases q <;> rfl

/-- The push of an operand: capacity decides (R191 to R193). -/
theorem push_of_elementBytes {q : Queue} {e : Bytes} {s : State}
    (hsize : e.length = q.elementBytes s.cfg) :
    push q e s = .next (
      if (s.queue q).length = q.cap s.cfg then s.answer .queueFull
      else (s.setQueue q (s.queue q ++ [e])).answer .ok) := by
  obtain ⟨hne, -⟩ | ⟨-, hfull, hpush⟩ | ⟨-, hroom, hpush⟩ := push_cases q e s
  · exact absurd hsize hne
  · rw [hpush, if_pos hfull]
  · rw [hpush, if_neg hroom]

/-- The pop, from every state: the oldest element decides (R194 to R196). -/
theorem pop_eq (q : Queue) (s : State) :
    pop q s = .next (
      match s.queue q with
      | [] => s.answer .noElement
      | e :: rest => (s.setQueue q rest).answer (.element e)) := by
  obtain ⟨hempty, hpop⟩ | ⟨e, rest, hcons, hpop⟩ := pop_cases q s
  · rw [hpop, hempty]
  · rw [hpop, hcons]

/-- A push that answers writes its queue and the result (R198). -/
theorem push_frame {q : Queue} {e : Bytes} {s t : State} (h : push q e s = .next t) :
    ∃ es r, t = (s.setQueue q es).answer r := by
  obtain ⟨-, hpush⟩ | ⟨-, -, hpush⟩ | ⟨-, -, hpush⟩ := push_cases q e s <;> rw [hpush] at h
  · cases h
  · cases h
    exact ⟨s.queue q, .queueFull, by rw [State.setQueue_queue]⟩
  · cases h
    exact ⟨_, _, rfl⟩

/-- A pop that answers writes its queue and the result (R198). -/
theorem pop_frame {q : Queue} {s t : State} (h : pop q s = .next t) :
    ∃ es r, t = (s.setQueue q es).answer r := by
  obtain ⟨-, hpop⟩ | ⟨e, rest, -, hpop⟩ := pop_cases q s <;> rw [hpop] at h <;> cases h
  · exact ⟨s.queue q, .noElement, by rw [State.setQueue_queue]⟩
  · exact ⟨rest, .element e, rfl⟩

/-- Settles O23. The frames of the push and the pop, and the read port's law for the count, which writes
the result only. -/
theorem queueOperationsTouchOneQueue : Obligations.QueueOperationsTouchOneQueue := by
  refine ⟨fun op s t h => ?operation, fun s t h => ?count⟩
  case operation =>
    cases op with
    | push q e => exact push_frame ((exec_pushOf q e s).symm.trans h)
    | pop q => exact pop_frame ((exec_popOf q s).symm.trans h)
  case count =>
    rw [exec_graphicCount] at h
    cases h
    exact ⟨.count s.gq.length, rfl⟩

/-- Settles O8. The count is the port's, the bound is the queue clause of the invariant (R25). -/
theorem graphicCountIsWithinCapacity : Obligations.GraphicCountIsWithinCapacity := by
  intro s hinv
  obtain ⟨hcap, -⟩ := hinv.queues .graphics
  exact ⟨s.gq.length, exec_graphicCount s, rfl, hcap⟩

/-- Settles O21: the push of each queue, in the order of R191 to R193. -/
theorem pushStoresOrReportsFull : Obligations.PushStoresOrReportsFull := by
  intro s e
  have hpush (q : Queue) (hsize : e.length = q.elementBytes s.cfg) :=
    (exec_pushOf q e s).trans (push_of_elementBytes hsize)
  exact ⟨hpush .graphics, hpush .labels, hpush .deletes⟩

/-- Settles O22: the pop of each queue, in the order of R194 to R196. -/
theorem popReturnsTheOldest : Obligations.PopReturnsTheOldest := by
  intro s
  have hpop (q : Queue) := (exec_popOf q s).trans (pop_eq q s)
  exact ⟨hpop .deletes, hpop .graphics, hpop .labels⟩

end Sys2Proof.Machine

/-! Proofs of the statements on `PACK` (43_packet_framer.md R221 to R228): what one frame takes from its
queue, the capacity of R223, then the four outcomes of `PACK`. -/

namespace Sys2Proof.Machine

open Sys2Proof Sys2Proof.Claims

/-- Output is the frame in `TXB` and in the result, with `PACK` ended (R235). -/
theorem State.emit_eq_issued (k : UiKind) (sender : Half) (body : Bytes) (s : State) :
    s.emit k sender body = issued (s.cfg.uiFrame (s.cfg.subId k) sender body) s :=
  State.emit_eq k sender body s

/-- A frame of what its queue holds takes `m` elements of the queue with it (R222, R224, R227, R235). -/
theorem State.emit_dequeueFramed {q : Queue} {s : State} (hq : s.queue q ≠ []) (k : UiKind) (m : Nat)
    (sender : Half) (body : Bytes) :
    (s.dequeueFramed q m body body).emit k sender body =
      issued (s.cfg.uiFrame (s.cfg.subId k) sender body) (s.setQueue q ((s.queue q).drop m)) := by
  obtain ⟨-, -, htake⟩ | ⟨hkept, -⟩ := State.dequeueFramed_cases q m body body s
  · rw [htake, State.emit_eq_issued, State.setQueue_cfg]
  · exact absurd ⟨hq, rfl⟩ hkept

/-- A frame of its queue's oldest element takes that element (R222, R227). -/
theorem frameOne_of_queue {q : Queue} {s : State} {e : Bytes} {rest : List Bytes}
    (hq : s.queue q = e :: rest) (k : UiKind) (sender : Half) :
    frameOne k q sender e s =
      .next (issued (s.cfg.uiFrame (s.cfg.subId k) sender e) (s.setQueue q rest)) := by
  have hemit := State.emit_dequeueFramed (q := q) (s := s) (by simp [hq]) k 1 sender e
  rw [frameOne, hq, List.headD_cons, hemit, hq, List.drop_one, List.tail_cons]

/-- A batch frame of the queued graphics takes its capacity of them (R224, R226). -/
theorem frameBatch_of_queue {s : State} (hg : s.gq ≠ []) (k : UiKind) (cap : Nat) (sender : Half) :
    frameBatch k cap sender (batchBody s.cfg cap s.gq) s =
      .next (issued (s.cfg.uiFrame (s.cfg.subId k) sender (batchBody s.cfg cap s.gq))
        { s with gq := s.gq.drop cap }) :=
  congrArg Host.Outcome.next (State.emit_dequeueFramed (q := .graphics) hg k cap sender _)

/-- The sub-command selected for `n` graphics frames a batch of the capacity of `n` (R223). -/
theorem runUi_drawKind (n : Nat) (sender : Half) (body : Bytes) (s : State) :
    runUi (drawKind (batchCap n)) sender body s =
      frameBatch (drawKind (batchCap n)) (batchCap n) sender body s := by
  obtain ⟨-, hcap⟩ | ⟨-, hcap⟩ | ⟨-, -, hcap⟩ | ⟨-, hcap⟩ := batchCap_cases n <;> rw [hcap] <;> rfl

/-- The capacity of R223 is all a batch can carry, or covers what is queued. -/
theorem batchCap_eq_seven_or_le (n : Nat) : batchCap n = 7 ∨ n ≤ batchCap n := by
  obtain ⟨hmin, hmax⟩ := batchCap_bounds n
  omega

/-- The capacity of R223 takes the first seven elements (R224). -/
theorem take_batchCap (es : List Bytes) : es.take (batchCap es.length) = es.take 7 := by
  obtain hcap | hle := batchCap_eq_seven_or_le es.length
  · rw [hcap]
  · have hmax := (batchCap_bounds es.length).2
    rw [List.take_of_length_le hle, List.take_of_length_le (hle.trans hmax)]

/-- The capacity of R223 leaves what follows the seventh element (R226). -/
theorem drop_batchCap (es : List Bytes) : es.drop (batchCap es.length) = es.drop 7 := by
  obtain hcap | hle := batchCap_eq_seven_or_le es.length
  · rw [hcap]
  · have hmax := (batchCap_bounds es.length).2
    rw [List.drop_of_length_le hle, List.drop_of_length_le (hle.trans hmax)]

/-- The body of a batch frame of the capacity of R223: the first seven elements, then inert slots
(R224, R225). -/
theorem batchBody_batchCap (c : Cfg) (es : List Bytes) :
    batchBody c (batchCap es.length) es =
      (es.take 7).flatten ++ (List.replicate (batchCap es.length - es.length) c.inertSlot).flatten := by
  rw [batchBody, List.flatten_append, take_batchCap]

/-- The rows of R223 are the capacities and the sub-commands `PACK` selects: the number of graphics
decides the row, and the rows exclude each other. -/
theorem batchRow_iff {c : Cfg} {n cap : Nat} {sub : Half} :
    BatchRow c n cap sub ↔ 1 ≤ n ∧ cap = batchCap n ∧ sub = c.subId (drawKind (batchCap n)) := by
  unfold BatchRow
  obtain ⟨hn, hcap⟩ | ⟨hn, hcap⟩ | ⟨hn, hn', hcap⟩ | ⟨hn, hcap⟩ := batchCap_cases n <;>
    simp only [hcap, drawKind, Cfg.subId] <;> grind

theorem exec_pack (sender : Half) (s : State) : exec (.pack sender) s = execPack sender s := rfl

/-- Everything `PACK` can do (R221): the frame of the oldest delete, of the oldest graphics, of the
oldest label, or nothing to frame. -/
theorem exec_pack_cases (sender : Half) (s : State) :
    (∃ d ds, s.dq = d :: ds ∧ exec (.pack sender) s =
      .next (issued (s.cfg.uiFrame s.cfg.subDelete sender d) { s with dq := ds })) ∨
    (s.dq = [] ∧ s.gq ≠ [] ∧ exec (.pack sender) s =
      .next (issued (s.cfg.uiFrame (s.cfg.subId (drawKind (batchCap s.gq.length))) sender
        ((s.gq.take 7).flatten ++
          (List.replicate (batchCap s.gq.length - s.gq.length) s.cfg.inertSlot).flatten))
        { s with gq := s.gq.drop 7 })) ∨
    (s.dq = [] ∧ s.gq = [] ∧ ∃ l ls, s.lq = l :: ls ∧ exec (.pack sender) s =
      .next (issued (s.cfg.uiFrame s.cfg.subString sender l) { s with lq := ls })) ∨
    (s.dq = [] ∧ s.gq = [] ∧ s.lq = [] ∧
      exec (.pack sender) s = .next (ended .nothingPending s)) := by
  rw [exec_pack, execPack]
  obtain ⟨d, ds, hd, hsel⟩ | ⟨hd, hg, hsel⟩ | ⟨hd, hg, l, ls, hl, hsel⟩ | ⟨hd, hg, hl, hsel⟩ :=
    select_cases s <;> rw [hsel]
  · exact .inl ⟨d, ds, hd, frameOne_of_queue (q := .deletes) hd .delete sender⟩
  · refine .inr (.inl ⟨hd, hg, ?_⟩)
    rw [← batchBody_batchCap, ← drop_batchCap]
    exact (runUi_drawKind _ _ _ _).trans (frameBatch_of_queue hg _ _ _)
  · exact .inr (.inr (.inl ⟨hd, hg, l, ls, hl, frameOne_of_queue (q := .labels) hl .string sender⟩))
  · exact .inr (.inr (.inr ⟨hd, hg, hl, rfl⟩))

/-- Settles O46. A row of R223 is the capacity and the sub-command of the queue's length, and needs a
graphic, so `PACK` is in its second case. -/
theorem packFramesABatch : Obligations.PackFramesABatch := by
  intro s sender cap sub hd hrow
  obtain ⟨hpos, rfl, rfl⟩ := batchRow_iff.mp hrow
  have hg : s.gq ≠ [] := List.ne_nil_of_length_pos hpos
  obtain ⟨d, ds, hd', -⟩ | ⟨-, -, hpack⟩ | ⟨-, hg', -⟩ | ⟨-, hg', -⟩ := exec_pack_cases sender s
  · exact nomatch hd.symm.trans hd'
  · exact hpack
  · exact absurd hg' hg
  · exact absurd hg' hg

/-- Settles O45: the first case of `PACK`. -/
theorem packFramesTheOldestDelete : Obligations.PackFramesTheOldestDelete := by
  intro s sender d ds hd
  obtain ⟨d', ds', hd', hpack⟩ | ⟨hnil, -⟩ | ⟨hnil, -⟩ | ⟨hnil, -⟩ := exec_pack_cases sender s
  · obtain ⟨rfl, rfl⟩ := List.cons.inj (hd.symm.trans hd')
    exact hpack
  all_goals exact nomatch hd.symm.trans hnil

/-- Settles O47: the third case of `PACK`. -/
theorem packFramesTheOldestLabel : Obligations.PackFramesTheOldestLabel := by
  intro s sender l ls hd hg hl
  obtain ⟨d, ds, hd', -⟩ | ⟨-, hg', -⟩ | ⟨-, -, l', ls', hl', hpack⟩ | ⟨-, -, hl', -⟩ :=
    exec_pack_cases sender s
  · exact nomatch hd.symm.trans hd'
  · exact absurd hg hg'
  · obtain ⟨rfl, rfl⟩ := List.cons.inj (hl.symm.trans hl')
    exact hpack
  · exact nomatch hl.symm.trans hl'

/-- Settles O48: the last case of `PACK`, and the only one whose result is not a frame. -/
theorem packReportsNothingPending : Obligations.PackReportsNothingPending := by
  intro s sender
  obtain ⟨d, ds, hd, hpack⟩ | ⟨-, hg, hpack⟩ | ⟨-, -, l, ls, hl, hpack⟩ | ⟨hd, hg, hl, hpack⟩ :=
    exec_pack_cases sender s <;> rw [hpack]
  · refine ⟨by simp [hd], ?_⟩
    rintro t ⟨⟩ ⟨⟩
  · refine ⟨fun _ hnil => absurd hnil hg, ?_⟩
    rintro t ⟨⟩ ⟨⟩
  · refine ⟨by simp [hl], ?_⟩
    rintro t ⟨⟩ ⟨⟩
  · exact ⟨fun _ _ _ => rfl, fun _ _ _ => ⟨hd, hg, hl⟩⟩

end Sys2Proof.Machine

/-! Proofs of the statements on the ticks of RefreshScheduler (44_environment.md R262 to R270): one staged
element, a sequence of them queue by queue, then the fast and the slow tick as such sequences. -/

namespace Sys2Proof.Machine

open Sys2Proof Sys2Proof.Claims

section Stage

variable (op : GraphicOp) (q : Queue) (sh : Shape) (s : State)

@[simp] theorem stage_cfg : (stage op q sh s).cfg = s.cfg := by
  obtain ⟨es, hstage, -⟩ := stage_eq op q sh s
  rw [hstage, State.setQueue_cfg]

@[simp] theorem stage_env : (stage op q sh s).env = s.env := by
  obtain ⟨es, hstage, -⟩ := stage_eq op q sh s
  rw [hstage, State.setQueue_env]

@[simp] theorem stage_fresh : (stage op q sh s).fresh = s.fresh + 1 := rfl

/-- What a staging does to the queues is the push (30_encoding.md R99), a full queue ignored. -/
theorem stage_queue (q' : Queue) :
    (stage op q sh s).queue q' =
      (s.enqueue q (drawn s.env.screen op (q.elementBytes s.cfg) s.fresh sh)).queue q' := by
  cases q' <;> rfl

theorem stage_queue_of_ne {q' : Queue} (hne : q ≠ q') :
    (stage op q sh s).queue q' = s.queue q' := by
  rw [stage_queue, State.enqueue_queue, if_neg fun h => hne h.1.symm]

/-- A staged element is stored as far as its queue has room. -/
theorem stage_queue_self (hcap : (s.queue q).length ≤ q.cap s.cfg) :
    (stage op q sh s).queue q = s.queue q ++
      [drawn s.env.screen op (q.elementBytes s.cfg) s.fresh sh].take
        (q.cap s.cfg - (s.queue q).length) := by
  rw [stage_queue, State.enqueue_queue]
  obtain hfull | hroom := hcap.eq_or_lt
  · simp [hfull]
  · rw [if_pos ⟨rfl, hroom.ne⟩, List.take_of_length_le (Nat.sub_pos_of_lt hroom)]

end Stage

/-- The elements that a sequence of stagings draws for one queue, free values from `draw` on: a staging
for another queue draws one as well. -/
def drawnFor (screen : Option Screen) (op : GraphicOp) (bytes : Nat) (q : Queue) (draw : Nat)
    (es : List (Queue × Shape)) : List Bytes :=
  (es.zipIdx draw).filterMap fun x =>
    if x.1.1 = q then some (drawn screen op bytes x.2 x.1.2) else none

section DrawnFor

variable (screen : Option Screen) (op : GraphicOp) (bytes : Nat) (q : Queue) (draw : Nat)

@[simp] theorem drawnFor_nil : drawnFor screen op bytes q draw [] = [] := rfl

theorem drawnFor_cons (e : Queue × Shape) (es : List (Queue × Shape)) :
    drawnFor screen op bytes q draw (e :: es) =
      (if e.1 = q then [drawn screen op bytes draw e.2] else []) ++
        drawnFor screen op bytes q (draw + 1) es := by
  by_cases hq : e.1 = q <;> simp [drawnFor, hq]

/-- Stagings for one queue alone draw an element for it each. -/
theorem drawnFor_map_mk (shapes : List Shape) :
    drawnFor screen op bytes q draw (shapes.map (Prod.mk q)) =
      (shapes.zipIdx draw).map fun x => drawn screen op bytes x.2 x.1 := by
  simp [drawnFor, List.zipIdx_map, List.filterMap_map]

end DrawnFor

section StageAll

variable {op : GraphicOp} {es : List (Queue × Shape)} {s : State} {q : Queue}

@[simp] theorem stageAll_fresh : (stageAll op es s).fresh = s.fresh + es.length := by
  induction es generalizing s with
  | nil => rfl
  | cons e es ih => rw [stageAll_cons, ih, stage_fresh, List.length_cons]; omega

theorem stageAll_queue_of_ne (hne : ∀ e ∈ es, e.1 ≠ q) :
    (stageAll op es s).queue q = s.queue q := by
  induction es generalizing s with
  | nil => rfl
  | cons e es ih =>
    obtain ⟨he, hes⟩ := List.forall_mem_cons.mp hne
    rw [stageAll_cons, ih hes, stage_queue_of_ne op e.1 e.2 s he]

/-- A queue takes what a sequence of stagings draws for it, in order and as far as it has room. -/
theorem stageAll_queue (hcap : (s.queue q).length ≤ q.cap s.cfg) :
    (stageAll op es s).queue q = s.queue q ++
      (drawnFor s.env.screen op (q.elementBytes s.cfg) q s.fresh es).take
        (q.cap s.cfg - (s.queue q).length) := by
  induction es generalizing s with
  | nil => simp
  | cons e es ih =>
    rw [stageAll_cons, drawnFor_cons]
    by_cases hq : e.1 = q
    · subst hq
      have hstage := stage_queue_self op e.1 e.2 s hcap
      have hlen := congrArg List.length hstage
      simp only [List.length_append, List.length_take, List.length_singleton] at hlen
      rw [ih (by rw [stage_cfg]; omega), if_pos rfl, List.take_append, ← List.append_assoc, ← hstage,
        stage_cfg, stage_env, stage_fresh, hlen, List.length_singleton]
      congr 2
      omega
    · have hstage := stage_queue_of_ne op e.1 e.2 s hq
      rw [ih (by rwa [stage_cfg, hstage]), if_neg hq, List.nil_append, hstage, stage_cfg, stage_env,
        stage_fresh]

/-- Stagings of graphics and labels write these two queues and the draw counter. -/
theorem stageAll_eq (hne : ∀ e ∈ es, e.1 ≠ .deletes) :
    stageAll op es s = { s with
      gq := (stageAll op es s).queue .graphics
      lq := (stageAll op es s).queue .labels
      fresh := s.fresh + es.length } := by
  obtain ⟨gq, lq, fresh, hframe⟩ := stageAll_frame op es s hne
  rw [← stageAll_fresh (op := op), hframe]
  rfl

end StageAll

theorem agent_fastTick (m : ModeSnapshot) (s : State) :
    agent (.fastTick m) s = .next ((fastTick m s).answer .nothing) := rfl

theorem agent_slowTick (s : State) :
    agent .slowTick s = .next ((slowTick s).answer .nothing) := rfl

/-- A highlight is one rectangle for the graphics, or none where the mode value is unknown (R267). -/
theorem highlight_eq (sh : Highlight → Shape) (h : Option Highlight) :
    highlight sh h = (h.map sh).toList.map (Prod.mk .graphics) := by
  cases h <;> rfl

/-- The body of a phase is its shapes, all for the graphics (R263 to R266, R268). -/
theorem phaseBody_eq (phase : BitVec 3) (m : ModeSnapshot) :
    phaseBody phase m = (shapesOf phase.toNat m).map (Prod.mk .graphics) := by
  rw [phaseBody]
  generalize phase.toNat = p
  match p with
  | 0 => exact congrArg _ (highlight_eq .chassisMode m.chassis)
  | 1 => rfl
  | 2 => exact highlight_eq .turretMode m.turret
  | 3 =>
    change highlight .safetyMode m.safety ++ highlight .fireRateMode m.fireRate = _
    rw [highlight_eq, highlight_eq, ← List.map_append]
    rfl
  | 4 => rfl
  | _ + 5 => rfl

theorem phaseBody_ne_of_ne_graphics {q : Queue} (hq : q ≠ .graphics) (phase : BitVec 3)
    (m : ModeSnapshot) : ∀ e ∈ phaseBody phase m, e.1 ≠ q :=
  fun e he heq => hq (heq.symm.trans (phaseBody_graphics phase m e he))

/-- Settles O54. The body is staged for the graphics alone, so of the queues the graphic queue changes,
by what the body's shapes draw. -/
theorem fastTickStagesThePhase : Obligations.FastTickStagesThePhase := by
  intro s m hcap shapes
  have hdeletes := phaseBody_ne_of_ne_graphics (q := .deletes) (by decide) s.env.phase m
  have hlabels := phaseBody_ne_of_ne_graphics (q := .labels) (by decide) s.env.phase m
  rw [agent_fastTick, fastTick, stageAll_eq hdeletes, stageAll_queue (q := .graphics) hcap,
    stageAll_queue_of_ne hlabels, phaseBody_eq, drawnFor_map_mk, List.length_map]
  rfl

section SlowBundle

variable (screen : Option Screen) (op : GraphicOp) (bytes draw : Nat)

theorem drawnFor_labels_slowBundle :
    drawnFor screen op bytes .labels draw slowBundle =
      [drawn screen op bytes draw (.legend 1), drawn screen op bytes (draw + 1) (.legend 2),
        drawn screen op bytes (draw + 2) (.legend 3), drawn screen op bytes (draw + 3) (.legend 4),
        drawn screen op bytes (draw + 5) (.title 1), drawn screen op bytes (draw + 6) (.title 2)] :=
  rfl

theorem drawnFor_graphics_slowBundle :
    drawnFor screen op bytes .graphics draw slowBundle =
      [drawn screen op bytes (draw + 4) .dividerLine] := rfl

end SlowBundle

/-- The slow tick's bundle staged in any mode: labels and graphics, each as far as there is room (R270). -/
theorem stageAll_slowBundle {op : GraphicOp} {s : State} (hgq : s.gq.length ≤ s.cfg.capG)
    (hlq : s.lq.length ≤ s.cfg.capL) :
    stageAll op slowBundle s = { s with
      lq := s.lq ++ (drawnFor s.env.screen op s.cfg.labelBytes .labels s.fresh slowBundle).take
        (s.cfg.capL - s.lq.length)
      gq := s.gq ++ (drawnFor s.env.screen op s.cfg.graphicBytes .graphics s.fresh slowBundle).take
        (s.cfg.capG - s.gq.length)
      fresh := s.fresh + 7 } := by
  have hstaged := stageAll_eq (op := op) (es := slowBundle) (s := s) (by decide)
  rwa [stageAll_queue (q := .graphics) hgq, stageAll_queue (q := .labels) hlq] at hstaged

/-- Settles O56. The mode and the phase are set first; then the bundle draws free values 0 to 3, 5 and 6
for the labels and 4 for the graphics. -/
theorem slowTickStagesTheBundle : Obligations.SlowTickStagesTheBundle := by
  intro s hgq hlq label
  rw [agent_slowTick, slowTick, stageAll_slowBundle, drawnFor_labels_slowBundle,
    drawnFor_graphics_slowBundle]
  · rfl
  · exact hgq
  · exact hlq

end Sys2Proof.Machine

/-! Proofs of the statements on `STATUS` (60_exceptions.md R325, R326): the two ports that set it to `OFFLINE`,
and the `DECODE` that sets it to `RUNNING` and keeps it there over its turns. -/

namespace Sys2Proof.Machine

open Sys2Proof

@[simp] theorem exec_setOffline (s : State) :
    exec .setOffline s = .next ((s.setStatus .offline).answer .nothing) := rfl

@[simp] theorem exec_restart (s : State) :
    exec .restart s = .next ((s.setStatus .offline).answer .nothing) := rfl

/-- A turn leaves `STATUS` alone. -/
theorem ScanStep.status_eq {rx : Bytes} {cur : Nat} {s t : State} (h : ScanStep rx cur s t) :
    t.status = s.status := by
  cases h <;> rfl

/-- A buffer that R50 admits is scanned from its start, with `STATUS` at `RUNNING` (R140). -/
theorem exec_decode_eq_scan {s : State} {rx : Bytes} (hl : rx.length ≤ s.cfg.rxbufMax) :
    exec (.decode rx) s = scan (rx.length + 1) ((s.setStatus .running).scanningAt rx 0) :=
  if_neg hl.not_gt

/-- `DECODE` completes from every state, whatever the buffer holds, and leaves the block `RUNNING`: the
status it sets at entry stands over every turn (R140). -/
theorem exec_decode_running {s : State} {rx : Bytes} (hw : s.cfg.WF)
    (hl : rx.length ≤ s.cfg.rxbufMax) :
    ∃ t, exec (.decode rx) s = .next t ∧ t.status = .running := by
  have turn_running (cur : Nat) (u v : State) (_ : u.activity = .scanning rx cur)
      (hu : u.status = .running) (hstep : ScanStep rx cur u v) :
      (v.activity = .idle → v.status = .running) ∧
        ∀ cur', v.activity = .scanning rx cur' → v.status = .running :=
    have hv : v.status = .running := hstep.status_eq.trans hu
    ⟨fun _ => hv, fun _ _ => hv⟩
  obtain ⟨t, hscan, -, hrunning⟩ :=
    scan_induction (fun _ u => u.status = .running) (fun u => u.status = .running)
      (rx.length + 1) 0 ((s.setStatus .running).scanningAt rx 0) hw rfl (by omega)
      (Nat.zero_le _) rfl turn_running
  exact ⟨t, (exec_decode_eq_scan hl).trans hscan, hrunning⟩

/-- Settles O5. The two ports are their `exec` laws, and a `DECODE` ends `RUNNING` from every state, the
one they leave included. -/
theorem setOfflineAndRestartChangeStatusOnly :
    Obligations.SetOfflineAndRestartChangeStatusOnly := by
  intro s
  refine ⟨?setOffline, ?restart, ?decode⟩
  case setOffline => exact exec_setOffline s
  case restart => exact exec_restart s
  case decode =>
    intro rx hw hl
    exact exec_decode_running (s := (s.setStatus .offline).answer .nothing) hw hl

end Sys2Proof.Machine

/-! The instructions by family: the pushes and the pops for every queue, the wire frames for every
variant, the outbound frames for every sub-command. Proofs on every instruction go by this case
split. -/

namespace Sys2Proof

open Sys2Proof.Claims

/-- Case analysis on an instruction by its family. -/
theorem Instr.families {motive : Instr → Prop} (reset : motive .reset)
    (decode : ∀ rx, motive (.decode rx)) (push : ∀ q e, motive (pushOf q e))
    (pop : ∀ q, motive (popOf q)) (graphicCount : motive .graphicCount)
    (pack : ∀ sender, motive (.pack sender)) (setOffline : motive .setOffline)
    (restart : motive .restart) (readField : ∀ k, motive (.readField k))
    (readStatus : motive .readStatus) (readDropcnt : motive .readDropcnt)
    (portReserved : motive .portReserved) (wire : ∀ k f, motive (Instr.ofField k f))
    (unknown : ∀ dl seq id, motive (.fUnknown dl seq id))
    (ui : ∀ k sender body, motive (Instr.ofUi k sender body)) (i : Instr) : motive i := by
  cases i with
  | reset => exact reset
  | decode rx => exact decode rx
  | pushGraphic e => exact push .graphics e
  | pushLabel e => exact push .labels e
  | pushDelete e => exact push .deletes e
  | popDelete => exact pop .deletes
  | popGraphic => exact pop .graphics
  | popLabel => exact pop .labels
  | graphicCount => exact graphicCount
  | pack sender => exact pack sender
  | setOffline => exact setOffline
  | restart => exact restart
  | readField k => exact readField k
  | readStatus => exact readStatus
  | readDropcnt => exact readDropcnt
  | portReserved => exact portReserved
  | fGameStatus f => exact wire .gameStatus f
  | fGameResult f => exact wire .gameResult f
  | fRobotHp f => exact wire .robotHp f
  | fDartStatus f => exact wire .dartStatus f
  | fFieldEvents f => exact wire .fieldEvents f
  | fRobotStatus f => exact wire .robotStatus f
  | fPowerHeat f => exact wire .powerHeat f
  | fPosition f => exact wire .position f
  | fBuffs f => exact wire .buffs f
  | fDamage f => exact wire .damage f
  | fLauncherData f => exact wire .launcherData f
  | fBulletsRemaining f => exact wire .bulletsRemaining f
  | fRfid f => exact wire .rfid f
  | fClientMaps f => exact wire .clientMaps f
  | fKeyboardMouse f => exact wire .keyboardMouse f
  | fOther j f => exact wire (.other j) f
  | fUnknown dl seq id => exact unknown dl seq id
  | uiDelete sender body => exact ui .delete sender body
  | uiDraw1 sender body => exact ui .draw1 sender body
  | uiDraw2 sender body => exact ui .draw2 sender body
  | uiDraw5 sender body => exact ui .draw5 sender body
  | uiDraw7 sender body => exact ui .draw7 sender body
  | uiString sender body => exact ui .string sender body

end Sys2Proof

/-! Proofs of the statements on the decoder and the encoder (30_encoding.md): the code of each
family of instructions, then the two directions family by family. -/

namespace Sys2Proof

open Sys2Proof.Claims

section Families

variable (c : Cfg)

theorem encode_ofField (k : Field) (f : WireFrame) :
    encode c (Instr.ofField k f) = encodeWire c k f := by
  cases k <;> rfl

theorem encode_ofUi (k : UiKind) (sender : Half) (body : Bytes) :
    encode c (Instr.ofUi k sender body) = encodeUi c k sender body := by
  cases k <;> rfl

theorem wellFormed_ofField (k : Field) (f : WireFrame) :
    (Instr.ofField k f).wellFormed c = f.fits c k := by
  cases k <;> rfl

theorem wellFormed_ofUi (k : UiKind) (sender : Half) (body : Bytes) :
    (Instr.ofUi k sender body).wellFormed c = (body.length == c.bodyBytes k) := by
  cases k <;> rfl

theorem wellFormed_pushOf (q : Machine.Queue) (e : Bytes) :
    (pushOf q e).wellFormed c = (e.length == q.elementBytes c) := by
  cases q <;> rfl

end Families

/-- A frame that fits is one of a row of the table, with a payload of the row's size. -/
theorem WireFrame.fits_iff {c : Cfg} {k : Field} {f : WireFrame} :
    f.fits c k = true ↔ ∃ row, c.rowOf k = some row ∧ f.payload.length = row.size := by
  unfold WireFrame.fits
  cases c.rowOf k <;> simp

theorem decodeSized_of_length {op : BitVec 4} {a : Bytes} {n : Nat} (i : Instr) (h : a.length = n) :
    decodeSized op a n i = .ok i := if_pos h

/-- A push is read back: its operand has the element size of its queue (R96). -/
theorem decode_encode_pushOf {c : Cfg} {q : Machine.Queue} {e : Bytes}
    (h : e.length = q.elementBytes c) : decode c (encode c (pushOf q e)) = .ok (pushOf q e) := by
  cases q <;> exact decodeSized_of_length _ h

theorem decodeInbound_of_frame {c : Cfg} {b : Bytes} {row : CmdRow} {f : WireFrame}
    (hd : decodeWire c b = .frame row f) (hl : b.length = span row.size) :
    decodeInbound c b = .ok (Instr.ofField row.field f) := by
  rw [decodeInbound, hd]
  exact if_pos hl

/-- An inbound frame of a variant with a row is read back (R80, R89). -/
theorem decode_encodeWire {c : Cfg} (hw : c.WF) {k : Field} {f : WireFrame}
    (h : f.fits c k = true) : decode c (encodeWire c k f) = .ok (Instr.ofField k f) := by
  obtain ⟨row, hrow, hsize⟩ := WireFrame.fits_iff.mp h
  obtain ⟨hmem, rfl⟩ := Cfg.rowOf_some hrow
  have hd := decodeWire_frameBytes [] (Cfg.lookup_of_mem hw hmem) hsize
  rw [List.append_nil] at hd
  rw [encodeWire, hrow]
  exact decodeInbound_of_frame hd (by rw [Cfg.frameBytes_length, hsize, span])

/-- A header with an id without a row is read back (R148, R176). -/
theorem decode_encode_fUnknown {c : Cfg} (dl : Half) (seq : Byte) {id : Half}
    (h : c.lookup id = none) :
    decode c (encode c (.fUnknown dl seq id)) = .ok (.fUnknown dl seq id) := by
  have hd := decodeWire_unknown dl seq [] h
  rw [List.append_nil] at hd
  change decodeInbound c (c.hdrGen dl seq ++ le16 id) = _
  rw [decodeInbound, hd]
  exact if_pos rfl

/-- An outbound frame is read back, where the sub-command ids are distinct (R90, R91). -/
theorem decode_encodeUi {c : Cfg} (hids : c.subIds.Nodup) {k : UiKind} {sender : Half}
    {body : Bytes} (h : body.length = c.bodyBytes k) :
    decode c (encodeUi c k sender body) = .ok (Instr.ofUi k sender body) := by
  obtain ⟨hlen, -, -, -, -, -, hsub, hsender, -, hbody, -⟩ :=
    Machine.uiFrameLayout c (c.subId k) sender body
  change decodeOutbound c (c.uiFrame (c.subId k) sender body) = _
  rw [decodeOutbound, hsub, hsender, hlen, Nat.add_sub_cancel_left, hbody,
    Cfg.uiKindOf_subId hids]
  simp [h]

/-- Settles O13, family by family. The operand sizes come from well-formedness; the rest of a code
is fixed by the instruction. -/
theorem decodeInvertsEncode : Obligations.DecodeInvertsEncode := by
  intro c i hw hids hwf
  induction i using Instr.families with
  | push q e => exact decode_encode_pushOf (by simpa [wellFormed_pushOf] using hwf)
  | pop q => cases q <;> rfl
  | pack sender => exact congrArg (Except.ok ∘ Instr.pack) (rd16_le16 sender)
  | readField k => exact congrArg (Except.ok ∘ Instr.readField) (rd16_le16 k)
  | wire k f =>
    rw [wellFormed_ofField] at hwf
    rw [encode_ofField, decode_encodeWire hw hwf]
  | unknown dl seq id => exact decode_encode_fUnknown dl seq (Option.isNone_iff_eq_none.mp hwf)
  | ui k sender body =>
    rw [wellFormed_ofUi] at hwf
    rw [encode_ofUi, decode_encodeUi hids (beq_iff_eq.mp hwf)]
  | reset | decode | graphicCount | setOffline | restart | readStatus | readDropcnt
  | portReserved => rfl

/-- Seven bytes with a valid header are the header generated from its fields and the id (R122). -/
theorem hdrGen_append_of_hdrChk {c : Cfg} {b : Bytes} (hc : c.hdrChk (b.take 5) = true)
    (hl : b.length = 7) : c.hdrGen (rd16 b 1) (b.getD 3 0) ++ le16 (rd16 b 5) = b := by
  have hdl : rd16 (b.take 5) 1 = rd16 b 1 := by simp [rd16]
  have hseq : (b.take 5).getD 3 0 = b.getD 3 0 := by simp
  have hid : b.take 5 ++ slice b 5 2 = b.take 7 := List.take_add.symm
  rw [← hdl, ← hseq, ← Cfg.eq_hdrGen_of_hdrChk hc, le16_rd16 b 5 hl.ge, hid,
    List.take_of_length_le hl.le]

/-- A decoded operation without operands has the code of its number (R96). -/
theorem encode_of_decodePlain {c : Cfg} {op : BitVec 4} {n : Nat} {a : Bytes} {i j : Instr}
    (hop : op.toNat = n) (hj : encode c j = .port (BitVec.ofNat 4 n) [])
    (h : decodePlain op a j = .ok i) : encode c i = .port op a := by
  subst hop
  rw [BitVec.ofNat_toNat, BitVec.setWidth_eq] at hj
  unfold decodePlain at h
  split at h
  next ha => cases h; rw [hj, ha]
  next => cases h

/-- A decoded operation with a sized operand has the code of its number and that operand (R96). -/
theorem encode_of_decodeSized {c : Cfg} {op : BitVec 4} {n m : Nat} {a : Bytes} {i j : Instr}
    (hop : op.toNat = n) (hj : a.length = m → encode c j = .port (BitVec.ofNat 4 n) a)
    (h : decodeSized op a m j = .ok i) : encode c i = .port op a := by
  subst hop
  rw [BitVec.ofNat_toNat, BitVec.setWidth_eq] at hj
  unfold decodeSized at h
  split at h
  next ha => cases h; exact hj ha
  next => cases h

/-- A two-byte operand is the 16-bit value read from it. -/
theorem le16_rd16_zero {a : Bytes} (h : a.length = 2) : le16 (rd16 a 0) = a := by
  rw [le16_rd16 a 0 h.ge]
  exact List.take_of_length_le h.le

/-- A port transaction that decodes is the code of its instruction (R96). -/
theorem encode_of_decodePort {c : Cfg} {op : BitVec 4} {a : Bytes} {i : Instr}
    (h : decodePort c op a = .ok i) : encode c i = .port op a := by
  unfold decodePort at h
  split at h
  case h_2 hop =>
    cases h
    rw [BitVec.eq_of_toNat_eq (y := 1) hop]
    rfl
  case h_3 hop | h_4 hop | h_5 hop => exact encode_of_decodeSized hop (fun _ => rfl) h
  case h_10 hop | h_13 hop =>
    refine encode_of_decodeSized hop ?_ h
    exact fun ha => congrArg (Code.port _) (le16_rd16_zero ha)
  case h_16 =>
    have hlt : op.toNat < 16 := op.isLt
    have hop : op.toNat = 15 := by grind
    exact encode_of_decodePlain hop rfl h
  case h_1 hop | h_6 hop | h_7 hop | h_8 hop | h_9 hop | h_11 hop | h_12 hop | h_14 hop
      | h_15 hop =>
    exact encode_of_decodePlain hop rfl h

/-- An inbound frame that decodes is the code of its instruction: the header checksum is the one
`HDRCHK` found right, and every other byte is a field (R80, R122). -/
theorem encode_of_decodeInbound {c : Cfg} (hw : c.WF) {b : Bytes} {i : Instr}
    (h : decodeInbound c b = .ok i) : encode c i = .inbound b := by
  unfold decodeInbound at h
  split at h
  case h_6 dl seq id hd =>
    obtain ⟨hc, -, -, rfl, rfl, rfl⟩ := unknown_of_decodeWire hd
    split at h
    next hl =>
      cases h
      exact congrArg Code.inbound (hdrGen_append_of_hdrChk hc hl)
    next => cases h
  case h_8 row f hd =>
    obtain ⟨hc, hrow, hle, rfl⟩ := frame_of_decodeWire hd
    obtain ⟨hmem, hid⟩ := Cfg.lookup_some hrow
    split at h
    next hl =>
      cases h
      rw [encode_ofField, encodeWire, Cfg.rowOf_of_mem hw hmem]
      simp only [hid]
      rw [frameBytes_wireFields hc hle, List.take_of_length_le (by rw [hl, span])]
    next => cases h
  all_goals cases h

/-- An outbound frame that decodes is the code of its instruction: the decoder compares every byte
(R90, R231 to R233). -/
theorem encode_of_decodeOutbound {c : Cfg} {b : Bytes} {i : Instr}
    (h : decodeOutbound c b = .ok i) : encode c i = .outbound b := by
  unfold decodeOutbound at h
  simp only [ne_eq, ite_not] at h
  split at h
  next hb =>
    split at h
    next => cases h
    next k hk =>
      have hsub : c.subId k = rd16 b 7 := by simpa using List.find?_some hk
      split at h
      next =>
        cases h
        rw [encode_ofUi, encodeUi, hsub, ← hb]
      next => cases h
  next => cases h

/-- Settles O14, one lemma for each form of a code. -/
theorem encodeInvertsDecode : Obligations.EncodeInvertsDecode := by
  intro c code i hw h
  cases code with
  | port op a => exact encode_of_decodePort h
  | inbound b => exact encode_of_decodeInbound hw h
  | outbound b => exact encode_of_decodeOutbound h

end Sys2Proof

/-! Proofs of the statements on `DECODE` as a whole (41_demux_decode.md R140 to R158): what the scan
of some bytes does to the block is one effect, the same from every state and wherever in a buffer
the bytes stand. -/

namespace Sys2Proof.Machine

open Sys2Proof Sys2Proof.Claims

@[simp] theorem shifted_zero (r : Result) : shifted 0 r = r := by
  cases r <;> rfl

@[simp] theorem shifted_shifted (m n : Nat) (r : Result) :
    shifted n (shifted m r) = shifted (n + m) r := by
  cases r <;> simp [shifted, Nat.add_comm, Nat.add_left_comm]

/-- Register writes one after the other. -/
def writeAll (writes : List (Nat × Bytes)) (T : List Bytes) : List Bytes :=
  writes.foldl (fun T w => T.set w.1 w.2) T

/-- The state with registers written and dropped frames counted. -/
def State.updated (writes : List (Nat × Bytes)) (drops : Nat) (s : State) : State :=
  { s with T := writeAll writes s.T, dropcnt := (dropNext s.cfg)^[drops] s.dropcnt }

theorem State.updated_updated (ws ws' : List (Nat × Bytes)) (m n : Nat) (s : State) :
    (s.updated ws m).updated ws' n = s.updated (ws ++ ws') (n + m) := by
  simp only [State.updated, writeAll, List.foldl_append, Function.iterate_add_apply]

/-- What a scan does to the block: its register writes in order, the number of frames it counts, and
its result, with the index of an error counted from the first byte scanned. -/
structure ScanEffect where
  writes : List (Nat × Bytes)
  drops : Nat
  result : Result

/-- The state that a scan from index `n` of its buffer leaves. -/
def ScanEffect.on (e : ScanEffect) (n : Nat) (s : State) : State :=
  ended (shifted n e.result) (s.updated e.writes e.drops)

@[simp] theorem ScanEffect.on_T (e : ScanEffect) (n : Nat) (s : State) :
    (e.on n s).T = writeAll e.writes s.T := rfl

/-- The payload of a frame of `b` with a valid header, a known id and a right trailer, with the
number of its variant's register (R145, R147, R151). -/
def ValidatedWrite (c : Cfg) (b : Bytes) (w : Nat × Bytes) : Prop :=
  ∃ (pos : Nat) (row : CmdRow), pos + 9 + row.size ≤ b.length ∧ c.hdrChk (slice b pos 5) = true ∧
    c.lookup (rd16 b (pos + 5)) = some row ∧ c.frmChk (slice b pos (9 + row.size)) = true ∧
    c.regOf row.field = some w.1 ∧ w.2 = slice b (pos + 7) row.size

/-- A frame behind other bytes stands as many bytes further on. -/
theorem ValidatedWrite.append {c : Cfg} {b : Bytes} {w : Nat × Bytes} (h : ValidatedWrite c b w)
    (x : Bytes) : ValidatedWrite c (x ++ b) w := by
  obtain ⟨pos, row, hl, hhdr, hrow, hfrm, hreg, hw⟩ := h
  have hslice (i n : Nat) : slice (x ++ b) (x.length + i) n = slice b i n :=
    slice_append_right x b i n _ rfl
  refine ⟨x.length + pos, row, by rw [List.length_append]; omega, ?_, ?_, ?_, hreg, ?_⟩
  · rwa [hslice]
  · rwa [Nat.add_assoc, rd16_append_right x b _ _ rfl]
  · rwa [hslice]
  · rwa [Nat.add_assoc, hslice]

/-- A whole frame at the cursor, its turn in terms of the bytes from the cursor on (R151 to R153).
-/
theorem step_scanningAt_frame {s : State} {pre b : Bytes} {row : CmdRow} {f : WireFrame} {reg : Nat}
    (hw : s.cfg.WF) (hd : decodeWire s.cfg b = .frame row f)
    (hreg : s.cfg.regOf row.field = some reg) :
    step (s.scanningAt (pre ++ b) pre.length) = .next
      (State.scanningAt (pre ++ b) (pre.length + span row.size)
        (if s.cfg.frmChk (slice b 0 (9 + row.size)) then s.updated [(reg, slice b 7 row.size)] 0
        else s.updated [] 1)) := by
  have hdrop : decodeWire s.cfg ((pre ++ b).drop pre.length) = .frame row f := by
    rwa [List.drop_left]
  have hslice (i n : Nat) : slice (pre ++ b) (pre.length + i) n = slice b i n :=
    slice_append_right pre b i n _ rfl
  obtain ⟨t, hrun, -, reg', hreg', rfl⟩ :=
    runWire_at (s := s.scanningAt (pre ++ b) pre.length) hw hdrop
  obtain rfl : reg' = reg := Option.some.inj (hreg'.symm.trans hreg)
  rw [step_scanningAt _ _ hw, List.drop_left, hd]
  refine hrun.trans (congrArg _ ?_)
  rw [hslice, ← Nat.add_zero pre.length, hslice, State.scanningAt_cfg, Nat.add_zero]
  split <;> rfl

/-- The scan of `rest` has the effect `e`, from every state under `c` and whatever stands before it
in the buffer; its writes are payloads of validated frames of `rest`. -/
structure HasEffect (c : Cfg) (rest : Bytes) (e : ScanEffect) : Prop where
  scansTo : ∀ (pre : Bytes) (s : State), s.cfg = c → ScansTo pre rest s (e.on pre.length s)
  result : e.result = .ok ∨ ∃ id pos, e.result = .errUnknownCmd id pos
  writes : ∀ w ∈ e.writes, ValidatedWrite c rest w

namespace HasEffect

variable {c : Cfg} {x rest : Bytes} {e : ScanEffect}

/-- The scan ends at the cursor, having counted `drops` frames. -/
theorem of_ended (hw : c.WF) {drops : Nat} {r : Result}
    (hr : r = .ok ∨ ∃ id pos, r = .errUnknownCmd id pos)
    (hstep : ∀ (pre : Bytes) (s : State), s.cfg = c →
      step (s.scanningAt (pre ++ rest) pre.length) =
        .next (ended (shifted pre.length r) (s.updated [] drops))) :
    HasEffect c rest ⟨[], drops, r⟩ where
  scansTo pre s hs := ScansTo.of_ended (hs ▸ hw) (hstep pre s hs)
  result := hr
  writes _ hmem := nomatch hmem

/-- The bytes `x` at the cursor are passed in one turn; the scan of the rest follows. -/
theorem of_step (hw : c.WF) (hx : x ≠ []) (he : HasEffect c rest e) {ws : List (Nat × Bytes)}
    {drops : Nat} (hvalid : ∀ w ∈ ws, ValidatedWrite c (x ++ rest) w)
    (hstep : ∀ (pre : Bytes) (s : State), s.cfg = c →
      step (s.scanningAt (pre ++ (x ++ rest)) pre.length) =
        .next ((s.updated ws drops).scanningAt (pre ++ (x ++ rest)) (pre.length + x.length))) :
    HasEffect c (x ++ rest) ⟨ws ++ e.writes, e.drops + drops, shifted x.length e.result⟩ where
  scansTo pre s hs := by
    refine ScansTo.of_step (hs ▸ hw) hx (hstep pre s hs) ?_
    have hrest := he.scansTo (pre ++ x) (s.updated ws drops) hs
    rwa [ScanEffect.on, State.updated_updated, List.length_append, ← shifted_shifted] at hrest
  result := by
    obtain hok | ⟨id, pos, herr⟩ := he.result
    · exact .inl (by rw [hok]; rfl)
    · exact .inr ⟨id, pos + x.length, by rw [herr]; rfl⟩
  writes w hmem := by
    obtain hturn | hrest := List.mem_append.mp hmem
    · exact hvalid w hturn
    · exact (he.writes w hrest).append x

/-- A byte of noise or of a bad header is skipped (R142, R143). -/
theorem of_skip (hw : c.WF) {b : Byte} (he : HasEffect c rest e)
    (hd : decodeWire c (b :: rest) = .skip ∨ decodeWire c (b :: rest) = .headerBad) :
    ∃ e', HasEffect c (b :: rest) e' := by
  refine ⟨_, of_step (x := [b]) (ws := []) (drops := 0) hw (List.cons_ne_nil b []) he (by simp) ?_⟩
  rintro pre s rfl
  rw [step_scanningAt _ _ hw, List.drop_left, List.singleton_append]
  obtain hd | hd := hd <;> rw [hd] <;> rfl

/-- A whole frame is committed or counted, and passed (R151 to R153). -/
theorem of_frame (hw : c.WF) {row : CmdRow} {f : WireFrame} (hx : x.length = span row.size)
    (he : HasEffect c rest e) (hd : decodeWire c (x ++ rest) = .frame row f) :
    ∃ e', HasEffect c (x ++ rest) e' := by
  obtain ⟨hhdr, hrow, hl, -⟩ := frame_of_decodeWire hd
  obtain ⟨reg, hreg, -⟩ := Cfg.regOf_some (Cfg.rowOf_of_mem hw (Cfg.lookup_some hrow).1)
  have hne : x ≠ [] := List.ne_nil_of_length_pos (by rw [hx, span]; omega)
  by_cases hchk : c.frmChk (slice (x ++ rest) 0 (9 + row.size)) = true
  · refine ⟨_, of_step (ws := [(reg, slice (x ++ rest) 7 row.size)]) (drops := 0) hw hne he ?_ ?_⟩
    · intro w hmem
      obtain rfl := List.mem_singleton.mp hmem
      exact ⟨0, row, by omega, hhdr, by simpa using hrow, hchk, hreg, rfl⟩
    · rintro pre s rfl
      rw [step_scanningAt_frame hw hd hreg, if_pos hchk, hx]
  · refine ⟨_, of_step (ws := []) (drops := 1) hw hne he (by simp) ?_⟩
    rintro pre s rfl
    rw [step_scanningAt_frame hw hd hreg, if_neg hchk, hx]

end HasEffect

/-- The scan of any bytes has an effect: by induction on their number, turn by turn. -/
theorem exists_hasEffect {c : Cfg} (hw : c.WF) (rest : Bytes) : ∃ e, HasEffect c rest e := by
  induction hn : rest.length using Nat.strongRecOn generalizing rest with
  | ind n ih =>
    have ended_ok (drops : Nat) (hstep : ∀ (pre : Bytes) (s : State), s.cfg = c →
        step (s.scanningAt (pre ++ rest) pre.length) = .next (ended .ok (s.updated [] drops))) :
        ∃ e, HasEffect c rest e :=
      ⟨_, .of_ended hw (.inl rfl) hstep⟩
    have skipped (hd : decodeWire c rest = .skip ∨ decodeWire c rest = .headerBad) :
        ∃ e, HasEffect c rest e := by
      cases rest with
      | nil => simp [decodeWire] at hd
      | cons b bs =>
        obtain ⟨e, he⟩ := ih bs.length (by simp [← hn]) bs rfl
        exact HasEffect.of_skip hw he hd
    cases hd : decodeWire c rest with
    | skip => exact skipped (.inl hd)
    | headerBad => exact skipped (.inr hd)
    | exhausted | headerCut | idCut =>
      refine ended_ok 0 ?_
      rintro pre s rfl
      rw [step_scanningAt _ _ hw, List.drop_left, hd]
      rfl
    | frameCut =>
      refine ended_ok 1 ?_
      rintro pre s rfl
      rw [step_scanningAt _ _ hw, List.drop_left, hd]
      rfl
    | unknown dl seq id =>
      refine ⟨_, .of_ended (r := .errUnknownCmd id 0) (drops := 0) hw (.inr ⟨id, 0, rfl⟩) ?_⟩
      rintro pre s rfl
      rw [step_scanningAt _ _ hw, List.drop_left, hd, shifted, Nat.zero_add]
      rfl
    | frame row f =>
      obtain ⟨-, -, hl, -⟩ := frame_of_decodeWire hd
      have hlen : (rest.take (span row.size)).length = span row.size :=
        List.length_take_of_le hl
      obtain ⟨e, he⟩ := ih (rest.drop (span row.size)).length
        (by rw [List.length_drop, span]; omega) _ rfl
      rw [← List.take_append_drop (span row.size) rest] at hd ⊢
      exact he.of_frame hw hlen hd

/-- `DECODE` has the effect of the scan of its buffer, and sets `STATUS` (R140, R141). -/
theorem HasEffect.exec_decode {rx : Bytes} {e : ScanEffect} {s : State} (he : HasEffect s.cfg rx e)
    (hl : rx.length ≤ s.cfg.rxbufMax) :
    exec (.decode rx) s = .next (e.on 0 (s.setStatus .running)) :=
  exec_decode_of_scansTo hl (he.scansTo [] (s.setStatus .running) rfl)

/-- Settles O33: the effect of the scan of the buffer gives the writes, the drops and the result. -/
theorem decodeIsAFunctionOfTheBuffer : Obligations.DecodeIsAFunctionOfTheBuffer := by
  intro c rx hw hl
  obtain ⟨e, he⟩ := exists_hasEffect hw rx
  refine ⟨e.writes, e.drops, e.result, he.result, ?_⟩
  rintro s rfl
  rw [he.exec_decode hl, ScanEffect.on, shifted_zero]
  rfl

/-- A `DECODE` that answers had a buffer within R50's bound. -/
theorem length_le_of_exec_decode {s t : State} {rx : Bytes} (h : exec (.decode rx) s = .next t) :
    rx.length ≤ s.cfg.rxbufMax := by
  by_contra hl
  have hrefused : exec (.decode rx) s = .refused (.rxTooLong rx.length) := if_pos (by omega)
  exact nomatch h.symm.trans hrefused

/-- A `DECODE` that answers had an effect. -/
theorem hasEffect_of_exec_decode {s t : State} {rx : Bytes} (hw : s.cfg.WF)
    (h : exec (.decode rx) s = .next t) :
    ∃ e, HasEffect s.cfg rx e ∧ t = e.on 0 (s.setStatus .running) := by
  obtain ⟨e, he⟩ := exists_hasEffect hw rx
  have hexec := he.exec_decode (length_le_of_exec_decode h)
  exact ⟨e, he, Host.Outcome.next.inj (h.symm.trans hexec)⟩

/-- The last write of a register, if there is one. -/
def lastWrite (writes : List (Nat × Bytes)) (k : Nat) : Option (Nat × Bytes) :=
  writes.reverse.find? (·.1 == k)

theorem lastWrite_append_singleton (ws : List (Nat × Bytes)) (w : Nat × Bytes) (k : Nat) :
    lastWrite (ws ++ [w]) k = if w.1 = k then some w else lastWrite ws k := by
  by_cases hk : w.1 = k <;> simp [lastWrite, hk]

theorem mem_of_lastWrite {ws : List (Nat × Bytes)} {k : Nat} {w : Nat × Bytes}
    (h : lastWrite ws k = some w) : w ∈ ws ∧ w.1 = k :=
  ⟨List.mem_reverse.mp (List.mem_of_find?_eq_some h), by simpa using List.find?_some h⟩

/-- What a register holds after writes: the payload of the last write of it, else what it held. -/
theorem getElem?_writeAll (writes : List (Nat × Bytes)) (T : List Bytes) (k : Nat) :
    (writeAll writes T)[k]? =
      match lastWrite writes k with
      | some w => T[k]?.map fun _ => w.2
      | none => T[k]? := by
  induction writes using List.reverseRecOn with
  | nil => rfl
  | append_singleton ws w ih =>
    have hset : writeAll (ws ++ [w]) T = (writeAll ws T).set w.1 w.2 := by simp [writeAll]
    rw [hset, List.getElem?_set', lastWrite_append_singleton, ih]
    split
    · cases lastWrite ws k <;> cases T[k]? <;> rfl
    · rfl

/-- Settles O40. A register changes to the payload of its last write, and the effect's writes are
payloads of validated frames. -/
theorem telemetryComesFromValidatedFrames : Obligations.TelemetryComesFromValidatedFrames := by
  intro s t rx hw h k
  obtain ⟨e, he, rfl⟩ := hasEffect_of_exec_decode hw h
  rw [ScanEffect.on_T, State.setStatus_T, getElem?_writeAll]
  cases hlast : lastWrite e.writes k with
  | none => exact .inl rfl
  | some w =>
    obtain ⟨hmem, rfl⟩ := mem_of_lastWrite hlast
    obtain ⟨pos, row, hl, hhdr, hrow, hfrm, hreg, hpayload⟩ := he.writes w hmem
    cases hT : s.T[w.1]? with
    | none => exact .inl rfl
    | some b => exact .inr ⟨pos, row, hl, hhdr, hrow, hfrm, hreg, congrArg some hpayload⟩

/-- The same writes again change nothing. -/
theorem writeAll_writeAll (writes : List (Nat × Bytes)) (T : List Bytes) :
    writeAll writes (writeAll writes T) = writeAll writes T := by
  apply List.ext_getElem?
  intro k
  simp only [getElem?_writeAll]
  cases lastWrite writes k <;> cases T[k]? <;> rfl

/-- Settles O41: the second `DECODE` has the effect of the first, so it makes the same writes. -/
theorem decodingTwiceIsDecodingOnce : Obligations.DecodingTwiceIsDecodingOnce := by
  intro s t u rx hw ht hu
  have hl := length_le_of_exec_decode ht
  obtain ⟨e, he, rfl⟩ := hasEffect_of_exec_decode hw ht
  have hagain := HasEffect.exec_decode (s := e.on 0 (s.setStatus .running)) he hl
  obtain rfl := Host.Outcome.next.inj (hu.symm.trans hagain)
  exact writeAll_writeAll e.writes s.T

/-- Settles O39. Behind the noise the scan has the effect it has at the start of the buffer; only an
error's index is counted from further back. -/
theorem leadingNoiseIsSkipped : Obligations.LeadingNoiseIsSkipped := by
  intro s t noise rx hw hnoise hl h
  obtain ⟨e, he, rfl⟩ := hasEffect_of_exec_decode hw h
  have hscan := ScansTo.noise_append (pre := []) (s := s.setStatus .running) hw hnoise
    (he.scansTo noise (s.setStatus .running) rfl)
  rw [exec_decode_of_scansTo hl hscan, ScanEffect.on, ScanEffect.on, shifted_zero]
  rfl

/-- `k + 1` steps are a step and `k` more. -/
theorem run_succ {s t : State} (k : Nat) (h : step s = .next t) :
    core.run (k + 1) s = core.run k t := by
  have hstep : core.step s = .next t := h
  simp only [Host.Core.run, hstep]

/-- A scan with turns to its end is that many steps of the machine, at most one for each byte left
and one more (R154). -/
theorem exists_run_eq_scan {rx : Bytes} {n cur : Nat} {s : State} (hw : s.cfg.WF)
    (ha : s.activity = .scanning rx cur) (hn : rx.length < cur + n) (hc : cur ≤ rx.length) :
    ∃ k ≤ rx.length - cur + 1, core.run k s = scan n s := by
  induction n generalizing cur s with
  | zero => omega
  | succ n ih =>
    obtain ⟨t, ht, hturn⟩ := step_scanning hw ha
    rw [scan_succ n hw ha ht]
    obtain hidle | ⟨cur', ha', hlt, hle⟩ := hturn.activity_cases ha
    · exact ⟨1, by omega, by rw [run_succ 0 ht, scan_idle n hidle]; rfl⟩
    · obtain ⟨k, hk, hrun⟩ := ih (hturn.cfg_eq ▸ hw) ha' (by omega) hle
      exact ⟨k + 1, by omega, by rw [run_succ k ht, hrun]⟩

/-- Settles O34: the scan of the whole buffer from index 0. -/
theorem decodeIsItsLoopRunToTheEnd : Obligations.DecodeIsItsLoopRunToTheEnd := by
  intro s rx hw hl
  obtain ⟨k, hk, hrun⟩ := exists_run_eq_scan (s := (s.setStatus .running).scanningAt rx 0)
    (n := rx.length + 1) hw rfl (by omega) (Nat.zero_le _)
  exact ⟨k, by omega, hrun.trans (exec_decode_eq_scan hl).symm⟩

/-- A frame with a wrong trailer is counted (R152). -/
theorem applyItem_of_not_frmChk {s : State} {it : Item}
    (hchk : s.cfg.frmChk (s.cfg.frameBytes it.row.id it.frame) = false) :
    applyItem s it = s.countDrop := by
  rw [applyItem, hchk]
  rfl

/-- Settles O36: the item of the one frame is counted. -/
theorem decodeDropsABadFrame : Obligations.DecodeDropsABadFrame := by
  intro s id f row hw hrow hsize hl hchk
  obtain ⟨hmem, rfl⟩ := Cfg.lookup_some hrow
  have hitem : applyItem (s.setStatus .running) ⟨[], row, f⟩ = (s.setStatus .running).countDrop :=
    applyItem_of_not_frmChk hchk
  rw [exec_decode_frameBytes hw hmem hsize hl, hitem]
  rfl

/-- Settles O32: the decoder reads the unknown id, and the turn ends the call at the cursor. -/
theorem scanAbortsAtAnUnknownId : Obligations.ScanAbortsAtAnUnknownId := by
  intro s rx cur hw ha hc hl hrow
  rw [State.eq_scanningAt ha, step_scanningAt rx cur hw, decodeWire_of_hdrChk hc (by simp; omega),
    rd16_drop, hrow]
  rfl

end Sys2Proof.Machine

/-! Proofs of the statements on the staging queues over time (42_staging_queue.md section 3) and on
their ring (10_state.md R26). -/

namespace Sys2Proof.Machine

open Sys2Proof Sys2Proof.Claims

section History

variable (q q' : Queue) (e : Bytes) (rest : List Bytes) (ops : List QueueOp) (s : State)

theorem history_push_refused (h : e.length ≠ q'.elementBytes s.cfg) :
    history q (.push q' e :: ops) s = history q ops s := by
  have hexec : exec (QueueOp.push q' e).instr s = .refused (.operandSize e.length) :=
    (exec_pushOf q' e s).trans (if_pos h)
  rw [history, hexec]

/-- A push that answers: on a full queue it stores nothing, else its element counts for its queue.
-/
theorem history_push (h : e.length = q'.elementBytes s.cfg) :
    history q (.push q' e :: ops) s =
      if (s.queue q').length = q'.cap s.cfg then history q ops (s.answer .queueFull)
      else
        let r := history q ops ((s.setQueue q' (s.queue q' ++ [e])).answer .ok)
        if q' = q then (e :: r.1, r.2) else r := by
  have hexec := (exec_pushOf q' e s).trans (push_of_elementBytes h)
  by_cases hfull : (s.queue q').length = q'.cap s.cfg
  · rw [if_pos hfull] at hexec
    rw [history, QueueOp.instr, hexec, if_pos hfull]
    rfl
  · rw [if_neg hfull] at hexec
    rw [history, QueueOp.instr, hexec, if_neg hfull]
    rfl

theorem history_pop_empty (h : s.queue q' = []) :
    history q (.pop q' :: ops) s = history q ops (s.answer .noElement) := by
  have hexec := (exec_popOf q' s).trans (pop_eq q' s)
  rw [h] at hexec
  rw [history, QueueOp.instr, hexec]
  rfl

/-- A pop of the oldest element: it counts for its queue. -/
theorem history_pop (h : s.queue q' = e :: rest) :
    history q (.pop q' :: ops) s =
      let r := history q ops ((s.setQueue q' rest).answer (.element e))
      if q' = q then (r.1, e :: r.2.1, r.2.2) else r := by
  have hexec := (exec_popOf q' s).trans (pop_eq q' s)
  rw [h] at hexec
  rw [history, QueueOp.instr, hexec]
  rfl

end History

/-- Settles O24, by induction on the operations: a stored element goes behind what the queue held, a
popped one was in front of it, and an operation on another queue leaves this one. -/
theorem queuesAreFifo : Obligations.QueuesAreFifo := by
  intro q ops
  induction ops with
  | nil => exact fun s hcap => ⟨by simp [history], hcap⟩
  | cons op ops ih =>
    intro s hcap
    cases op with
    | push q' e =>
      by_cases hsize : e.length = q'.elementBytes s.cfg
      · rw [history_push q q' e ops s hsize]
        split
        next => simpa using ih (s.answer .queueFull) (by simpa using hcap)
        next hroom =>
          have hrest := ih ((s.setQueue q' (s.queue q' ++ [e])).answer .ok)
          by_cases hq : q' = q
          · subst hq
            have hlt : (s.queue q').length < q'.cap s.cfg := lt_of_le_of_ne hcap hroom
            simpa [hlt] using hrest
          · simpa [hq, Ne.symm hq, hcap] using hrest
      · rw [history_push_refused q q' e ops s hsize]
        exact ih s hcap
    | pop q' =>
      cases hqueue : s.queue q' with
      | nil =>
        rw [history_pop_empty q q' ops s hqueue]
        simpa using ih (s.answer .noElement) (by simpa using hcap)
      | cons e rest =>
        rw [history_pop q q' e rest ops s hqueue]
        have hrest := ih ((s.setQueue q' rest).answer (.element e))
        by_cases hq : q' = q
        · subst hq
          have hlt : rest.length ≤ q'.cap s.cfg := by rw [hqueue] at hcap; exact Nat.le_of_lt hcap
          simpa [hlt, hqueue] using hrest
        · simpa [hq, Ne.symm hq, hcap] using hrest

namespace Ring

variable {r r' : Ring} {e x : Bytes}

@[simp] theorem length_toList : r.toList.length = r.count := by
  simp [toList]

theorem toList_eq_nil_iff : r.toList = [] ↔ r.count = 0 := by
  rw [← List.length_eq_zero_iff, length_toList]

theorem push_eq_none_iff : r.push e = none ↔ r.count = r.slots.length := by
  simp [push]

theorem pop_eq_none_iff : r.pop = none ↔ r.count = 0 := by
  simp [pop]

/-- The slot behind the occupied ones is none of them. -/
theorem free_slot_ne {i : Nat} (hi : i < r.count) (hroom : r.count < r.slots.length) :
    (r.head + r.count) % r.slots.length ≠ (r.head + i) % r.slots.length := fun heq =>
  have hmod : r.count ≡ i [MOD r.slots.length] := Nat.ModEq.add_left_cancel' r.head heq
  hi.ne' (hmod.eq_of_lt_of_lt hroom (hi.trans hroom))

/-- A push leaves the occupied slots and writes the one behind them. -/
theorem push_spec (hwf : r.WF) (h : r.push e = some r') :
    r'.WF ∧ r'.slots.length = r.slots.length ∧ r'.toList = r.toList ++ [e] := by
  obtain ⟨hhead, hcount⟩ := hwf
  unfold push at h
  split at h
  next => cases h
  next hfull =>
    cases h
    have hroom : r.count < r.slots.length := lt_of_le_of_ne hcount hfull
    have hslot : (r.head + r.count) % r.slots.length < r.slots.length :=
      Nat.mod_lt _ (Nat.zero_lt_of_lt hhead)
    refine ⟨⟨by simpa using hhead, by simpa using hroom⟩, by simp, ?_⟩
    simp only [toList, List.length_set, List.range_succ, List.map_append, List.map_singleton]
    congr 1
    · refine List.map_congr_left fun i hi => ?_
      have hne := free_slot_ne (List.mem_range.mp hi) hroom
      simp [List.getD_eq_getElem?_getD, List.getElem?_set_ne hne]
    · simp [List.getD_eq_getElem?_getD, hslot]

/-- A pop takes the head's slot and moves the head to the next one. -/
theorem pop_spec (hwf : r.WF) (h : r.pop = some (x, r')) :
    r'.WF ∧ r'.slots.length = r.slots.length ∧ r.toList = x :: r'.toList := by
  obtain ⟨hhead, hcount⟩ := hwf
  unfold pop at h
  split at h
  next => cases h
  next hne =>
    cases h
    obtain ⟨n, hn⟩ := Nat.exists_eq_succ_of_ne_zero hne
    refine ⟨⟨Nat.mod_lt _ (Nat.zero_lt_of_lt hhead), (Nat.sub_le _ _).trans hcount⟩, rfl, ?_⟩
    simp only [toList, hn, Nat.succ_eq_add_one, Nat.add_sub_cancel, List.range_succ_eq_map,
      List.map_cons, List.map_map, Nat.add_zero, Nat.mod_eq_of_lt hhead]
    congr 1
    refine List.map_congr_left fun i _ => ?_
    simp [Nat.add_assoc, Nat.add_comm 1]

end Ring

/-- Settles O25: one lemma for each clause on the ring. -/
theorem ringRefinesTheQueue : Obligations.RingRefinesTheQueue := by
  intro r e hwf
  refine ⟨Ring.length_toList, ?_, fun _ => Ring.push_spec hwf, ?_, fun _ _ => Ring.pop_spec hwf⟩
  · rw [Ring.length_toList, Ring.push_eq_none_iff]
  · rw [Ring.toList_eq_nil_iff, Ring.pop_eq_none_iff]

end Sys2Proof.Machine

/-! Proofs of the statements on frames `PACK` issues (43_packet_framer.md section 3): a frame passes
the checks, `PACK` until nothing is pending, the loop back into DMX, and the outbound frames one by
one. -/

namespace Sys2Proof.Cfg

/-- A generated trailer is right, whatever it closes (40_crc_header_validator.md R125). -/
theorem frmChk_frmGen (c : Cfg) (pre : Bytes) : c.frmChk (c.frmGen pre) = true := by
  have hlen : (c.frmGen pre).length - 2 = pre.length := by simp
  have htrailer := rd16_append_le16 pre [] (c.crc16 pre) pre.length rfl
  rw [List.append_nil] at htrailer
  rw [frmChk, hlen, frmGen, List.take_left, htrailer, beq_self_eq_true]

/-- The bodies of R5 bound `data_length` below 2^16 (R230; log entry 23). -/
theorem toNat_uiDataLength {c : Cfg} (hw : c.WF) {body : Bytes} (hbody : body.length ≤ c.maxBody) :
    (uiDataLength body).toNat = 6 + body.length := by
  obtain ⟨-, -, -, -, -, -, -, -, -, -, -, -, -, hmax⟩ := hw
  rw [uiDataLength, BitVec.toNat_ofNat, Nat.mod_eq_of_lt (by omega)]

end Sys2Proof.Cfg

namespace Sys2Proof.Machine

open Sys2Proof Sys2Proof.Claims

/-- Settles O42: the header law and the trailer law. -/
theorem generatedHeadersAndFramesPass : Obligations.GeneratedHeadersAndFramesPass :=
  fun c => ⟨fun _ _ => Cfg.hdrChk_hdrGen _ _, fun pre _ => Cfg.frmChk_frmGen c pre⟩

/-- Under the invariant, `PACK` issues a frame of at most the largest body, or finds nothing
pending; of the queues, one has lost elements at its front. -/
theorem exec_pack_of_inv {s : State} (h : s.Inv) (sender : Half) :
    exec (.pack sender) s = .next (ended .nothingPending s) ∨
    ∃ q n sub body, body.length ≤ s.cfg.maxBody ∧ exec (.pack sender) s =
      .next (issued (s.cfg.uiFrame sub sender body) (s.setQueue q ((s.queue q).drop n))) := by
  have hsize (q : Queue) : ∀ e ∈ s.queue q, e.length = q.elementBytes s.cfg := (h.queues q).2
  obtain ⟨d, ds, hd, hpack⟩ | ⟨hd, hg, hpack⟩ | ⟨-, -, l, ls, hl, hpack⟩ | ⟨-, -, -, hpack⟩ :=
    exec_pack_cases sender s
  · have hbody : d.length = s.cfg.deleteBytes := hsize .deletes d (by simp [hd])
    refine .inr ⟨.deletes, 1, s.cfg.subDelete, d, by rw [Cfg.maxBody]; omega, ?_⟩
    rw [hpack, State.queue_deletes, hd]
    rfl
  · have hbody : (batchBody s.cfg (batchCap s.gq.length) s.gq).length = _ :=
      batchBody_length h.cfg (batchCap s.gq.length) (hsize .graphics)
    have hcap := Nat.mul_le_mul_right s.cfg.graphicBytes (batchCap_bounds s.gq.length).2
    rw [← batchBody_batchCap] at hpack
    exact .inr ⟨.graphics, 7, _, _, by rw [Cfg.maxBody]; omega, hpack⟩
  · have hbody : l.length = s.cfg.labelBytes := hsize .labels l (by simp [hl])
    refine .inr ⟨.labels, 1, s.cfg.subString, l, by rw [Cfg.maxBody]; omega, ?_⟩
    rw [hpack, State.queue_labels, hl]
    rfl
  · exact .inl hpack

/-- Settles O51: the layout of the frame, with the two laws of HV for the checks and the bound of
the body for the lengths. -/
theorem packedFramesAreWellFormed : Obligations.PackedFramesAreWellFormed := by
  intro s t sender fr hinv h hfr
  obtain hpack | ⟨q, n, sub, body, hbody, hpack⟩ := exec_pack_of_inv hinv sender <;>
    obtain rfl := Host.Outcome.next.inj (h.symm.trans hpack)
  · cases hfr
  · obtain rfl : s.cfg.uiFrame sub sender body = fr := Result.frame.inj hfr
    obtain ⟨hlen, hheader, -, hdl, hseq, hid, -⟩ := uiFrameLayout s.cfg sub sender body
    refine ⟨?_, Cfg.frmChk_frmGen _ _, hseq, hid, ?_, rfl, ?_⟩
    · rw [hheader, Cfg.hdrChk_hdrGen]
    · rw [hdl, hlen, ← uiDataLength, Cfg.toNat_uiDataLength hinv.cfg hbody]
      omega
    · rw [hlen, Cfg.txbMax]
      omega

/-- An outbound frame of a row's size, received, commits sub-header and body (R93). -/
theorem exec_decode_uiFrame_of_row {s : State} {sub sender : Half} {body : Bytes} {row : CmdRow}
    {reg : Nat} (hw : s.cfg.WF) (hrow : s.cfg.lookup s.cfg.outerCmdId = some row)
    (hreg : s.cfg.regOf row.field = some reg) (hsize : row.size = 6 + body.length)
    (hl : 15 + body.length ≤ s.cfg.rxbufMax) :
    exec (.decode (s.cfg.uiFrame sub sender body)) s = .next (ended .ok { s with
      status := .running, T := s.T.set reg (Cfg.uiPayload sub sender body) }) := by
  have hframe : s.cfg.uiFrame sub sender body = s.cfg.framed s.cfg.outerCmdId (uiDataLength body) 0
      (Cfg.uiPayload sub sender body) := Cfg.uiFrame_eq_frameBytes sub sender body s.cfg
  rw [hframe]
  exact decodeCommitsAValidFrame s _ _ _ _ row reg hw hrow hreg
    (by rw [Cfg.uiPayload_length, hsize]) (by omega)

/-- An outbound frame, received under a table without the outer command id, ends the call at its
start (R93, R148). -/
theorem exec_decode_uiFrame_unknown {s : State} {sub sender : Half} {body : Bytes} (hw : s.cfg.WF)
    (hrow : s.cfg.lookup s.cfg.outerCmdId = none) (hl : 15 + body.length ≤ s.cfg.rxbufMax) :
    exec (.decode (s.cfg.uiFrame sub sender body)) s =
      .next (ended (.errUnknownCmd s.cfg.outerCmdId 0) { s with status := .running }) := by
  refine exec_decode_of_scansTo (by rwa [Cfg.uiFrame_length]) ?_
  rw [Cfg.uiFrame_eq_frameBytes, Cfg.frameBytes_eq_append, ← List.append_assoc]
  exact ScansTo.unknown (s := s.setStatus .running) hw hrow

/-- Settles O53: the frame of the oldest delete, received with and without a row for the outer id.
-/
theorem loopBackOfADeleteFrame : Obligations.LoopBackOfADeleteFrame := by
  intro s t sender d ds hw hd hl h
  have hpack := packFramesTheOldestDelete s sender d ds hd
  obtain rfl := Host.Outcome.next.inj (h.symm.trans hpack)
  refine ⟨fun row reg hrow hreg hsize => ?known, fun hrow => ?unknown⟩
  case known =>
    simp only [List.append_assoc]
    exact exec_decode_uiFrame_of_row (s := issued _ { s with dq := ds }) hw hrow hreg hsize hl
  case unknown =>
    exact exec_decode_uiFrame_unknown (s := issued _ { s with dq := ds }) hw hrow hl

/-! Draining (R238): one call of `PACK` takes the first of the frames that empty the queues. -/

/-- The number of frames that emptying SQ takes (R238). -/
def framesPending (s : State) : Nat := s.dq.length + (s.gq.length + 6) / 7 + s.lq.length

/-- The state with empty queues, the frame `fr` in `TXB` and nothing pending. -/
def drained (fr : Bytes) (s : State) : State :=
  { s with dq := [], gq := [], lq := [], txb := fr, result := .nothingPending, activity := .idle }

theorem groupsOf7_succ {es : List Bytes} (hne : es ≠ []) (n : Nat) :
    groupsOf7 (n + 1) es = es.take 7 :: groupsOf7 n (es.drop 7) := by
  rw [groupsOf7, if_neg hne]

/-- As many groups as there are elements are enough: they are the elements by sevens. -/
theorem groupsOf7_of_length_le {n : Nat} {es : List Bytes} (h : es.length ≤ n) :
    groupsOf7 n es = groupsOf7 es.length es := by
  induction n using Nat.strongRecOn generalizing es with
  | ind n ih =>
    cases es with
    | nil => cases n <;> rfl
    | cons e es =>
      obtain ⟨m, rfl⟩ : ∃ m, n = m + 1 := ⟨n - 1, by simp at h; omega⟩
      have hdrop : ((e :: es).drop 7).length ≤ es.length := by simp
      rw [groupsOf7_succ (List.cons_ne_nil e es), List.length_cons,
        groupsOf7_succ (List.cons_ne_nil e es), ih m (by omega) (hdrop.trans (by simpa using h)),
        ih es.length (by simp at h; omega) hdrop]

theorem groupsOf7_length {es : List Bytes} (hne : es ≠ []) :
    groupsOf7 es.length es = es.take 7 :: groupsOf7 (es.drop 7).length (es.drop 7) := by
  have hpos := List.length_pos_iff.mpr hne
  obtain ⟨n, hn⟩ : ∃ n, es.length = n + 1 := ⟨es.length - 1, by omega⟩
  rw [hn, groupsOf7_succ hne, groupsOf7_of_length_le (by rw [List.length_drop]; omega)]

theorem length_groupsOf7 {n : Nat} {es : List Bytes} (h : es.length ≤ n) :
    (groupsOf7 n es).length = (es.length + 6) / 7 := by
  induction n generalizing es with
  | zero => simp_all [groupsOf7]
  | succ n ih =>
    by_cases hne : es = []
    · simp [groupsOf7, hne]
    · have hpos := List.length_pos_iff.mpr hne
      rw [groupsOf7_succ hne, List.length_cons, ih (by simp; omega), List.length_drop]
      omega

theorem length_drainFrames (s : State) (sender : Half) :
    (drainFrames s sender).length = framesPending s := by
  simp [drainFrames, framesPending, length_groupsOf7 le_rfl, Nat.add_assoc]

/-- The capacity of R223 written as a function is the one `PACK` selects. -/
theorem capFor_eq_batchCap (n : Nat) : capFor (min 7 n) = batchCap n := by
  unfold capFor
  obtain ⟨hn, hcap⟩ | ⟨hn, hcap⟩ | ⟨hn, hn', hcap⟩ | ⟨hn, hcap⟩ := batchCap_cases n <;>
    rw [hcap] <;> grind

theorem subFor_eq_subId (c : Cfg) (cap : Nat) : subFor c cap = c.subId (drawKind cap) := by
  unfold subFor drawKind
  repeat' split
  all_goals rfl

/-- The body of a group of seven is the body of the whole queue's batch (R224, R225). -/
theorem slots_take_seven (c : Cfg) (es : List Bytes) :
    slots c (batchCap es.length) (es.take 7) = (es.take 7).flatten ++
      (List.replicate (batchCap es.length - es.length) c.inertSlot).flatten := by
  obtain ⟨hmin, hmax⟩ := batchCap_bounds es.length
  have hinert : batchCap es.length - (es.take 7).length = batchCap es.length - es.length := by
    rw [List.length_take]; omega
  rw [slots, hinert, List.take_of_length_le (by rw [List.length_take]; omega)]

/-- One call of `PACK` takes the first of the frames that empty the queues, and leaves the others.
-/
theorem exec_pack_drainFrames (s : State) (sender : Half) :
    (drainFrames s sender = [] ∧
      exec (.pack sender) s = .next (drained s.txb s)) ∨
    ∃ fr t, exec (.pack sender) s = .next t ∧ t.result = .frame fr ∧ t.txb = fr ∧
      drainFrames s sender = fr :: drainFrames t sender ∧
      ∀ last, drained last t = drained last s := by
  obtain ⟨d, ds, hd, hpack⟩ | ⟨hd, hg, hpack⟩ | ⟨hd, hg, l, ls, hl, hpack⟩ | ⟨hd, hg, hl, hpack⟩ :=
    exec_pack_cases sender s
  · exact .inr ⟨_, _, hpack, rfl, rfl, by rw [drainFrames, hd]; rfl, fun _ => rfl⟩
  · refine .inr ⟨_, _, hpack, rfl, rfl, ?_, fun _ => rfl⟩
    rw [← slots_take_seven, ← subFor_eq_subId, ← capFor_eq_batchCap, ← List.length_take]
    simp [drainFrames, issued, hd, groupsOf7_length hg]
  · refine .inr ⟨_, _, hpack, rfl, rfl, ?_, fun _ => rfl⟩
    simp [drainFrames, issued, hd, hg, hl, groupsOf7]
  · have hended : ended .nothingPending s = drained s.txb s := by
      simp only [drained, ended, hd, hg, hl]
    exact .inl ⟨by simp [drainFrames, hd, hg, hl, groupsOf7], hpack.trans (congrArg _ hended)⟩

/-- Calls of `PACK` beyond the frames pending give these frames and end with nothing pending. -/
theorem drain_eq {n : Nat} {s : State} (sender : Half) (hn : framesPending s < n) :
    drain sender n s =
      (drainFrames s sender, drained ((drainFrames s sender).getLastD s.txb) s) := by
  induction n generalizing s with
  | zero => omega
  | succ n ih =>
    obtain ⟨hnone, hpack⟩ | ⟨fr, t, hpack, hresult, htxb, hframes, hdrained⟩ :=
      exec_pack_drainFrames s sender
    · rw [drain, ← exec_pack, hpack, hnone]
      rfl
    · have hpending := congrArg List.length hframes
      rw [List.length_cons, length_drainFrames, length_drainFrames] at hpending
      rw [drain_frame hpack hresult, ih (by omega), hframes, htxb, hdrained, List.getLastD_cons]

/-- Settles O52, by the induction over the calls in `drain_eq`. -/
theorem drainingFollowsThePriority : Obligations.DrainingFollowsThePriority :=
  fun s sender _ hn => ⟨length_drainFrames s sender, drain_eq sender hn⟩

/-! The outbound frames one by one (R222 to R227), and which of them a step inside a `PACK` runs
(R221). -/

theorem slots_eq_batchBody (c : Cfg) (cap : Nat) (es : List Bytes) :
    slots c cap es = batchBody c cap es := by
  rw [batchBody, List.flatten_append, slots]

/-- Settles O49: each frame is the rule of its queue. -/
theorem uiFramesTakeWhatTheyFrame : Obligations.UiFramesTakeWhatTheyFrame := by
  intro s sender body
  have batch (k : UiKind) (cap : Nat) (hg : s.gq ≠ []) (hbody : body = slots s.cfg cap s.gq) :
      frameBatch k cap sender body s =
        .next (issued (s.cfg.uiFrame (s.cfg.subId k) sender body)
          { s with gq := s.gq.drop cap }) := by
    rw [hbody, slots_eq_batchBody]
    exact frameBatch_of_queue hg k cap sender
  exact ⟨fun _ hd => frameOne_of_queue (q := .deletes) hd .delete sender,
    fun _ hl => frameOne_of_queue (q := .labels) hl .string sender,
    batch .draw1 1, batch .draw2 2, batch .draw5 5, batch .draw7 7⟩

/-- A body that is not what the queue would frame takes nothing (log entry 8). -/
theorem State.emit_dequeueFramed_of_ne {q : Queue} {s : State} {framed body : Bytes}
    (h : s.queue q = [] ∨ body ≠ framed) (k : UiKind) (m : Nat) (sender : Half) :
    (s.dequeueFramed q m framed body).emit k sender body =
      issued (s.cfg.uiFrame (s.cfg.subId k) sender body) s := by
  obtain ⟨hq, hbody, -⟩ | ⟨-, hkept⟩ := State.dequeueFramed_cases q m framed body s
  · exact (h.elim hq fun hne => hne hbody).elim
  · rw [hkept, State.emit_eq_issued]

/-- A queue whose oldest element is not `body` is empty, or its oldest element is another. -/
theorem eq_nil_or_ne_headD {es : List Bytes} {body : Bytes} (h : es.head? ≠ some body) :
    es = [] ∨ body ≠ es.headD [] := by
  cases es with
  | nil => exact .inl rfl
  | cons e es => exact .inr fun heq => h (congrArg some heq.symm)

/-- Settles O50: of another body each frame is the rule above. -/
theorem uiFramesOfOtherBodiesLeaveTheQueues : Obligations.UiFramesOfOtherBodiesLeaveTheQueues := by
  intro s sender body
  have one (k : UiKind) (q : Queue) (h : (s.queue q).head? ≠ some body) :
      frameOne k q sender body s =
        .next (issued (s.cfg.uiFrame (s.cfg.subId k) sender body) s) :=
    congrArg _ (State.emit_dequeueFramed_of_ne (eq_nil_or_ne_headD h) k 1 sender)
  have batch (k : UiKind) (cap : Nat) (h : s.gq = [] ∨ body ≠ slots s.cfg cap s.gq) :
      frameBatch k cap sender body s =
        .next (issued (s.cfg.uiFrame (s.cfg.subId k) sender body) s) := by
    rw [slots_eq_batchBody] at h
    exact congrArg _ (State.emit_dequeueFramed_of_ne (q := .graphics) h k cap sender)
  exact ⟨one .delete .deletes, one .string .labels, batch .draw1 1, batch .draw2 2, batch .draw5 5,
    batch .draw7 7⟩

section StepFraming

variable {s : State} {sender : Half} (hw : s.cfg.WF) (ha : s.activity = .framing sender)
include hw ha

/-- A step inside a `PACK` runs the frame of what is selected (R221). -/
theorem step_framing_of_some {k : UiKind} {body : Bytes} (hsel : select s = some (k, body)) :
    step s = exec (Instr.ofUi k sender body) s := by
  simp only [step_of_wf s hw, fetchHere, ha, fetchUi, hsel, runFetched_run]

/-- A step inside a `PACK` with nothing selected ends it (R228). -/
theorem step_framing_of_none (hsel : select s = none) :
    step s = .next (ended .nothingPending s) := by
  simp only [step_of_wf s hw, fetchHere, ha, fetchUi, hsel, runFetched_moved]
  rfl

end StepFraming

/-- Settles O3, queue by queue; a row of R223 names the sub-command selected, since the sub-command
ids are distinct. -/
theorem stepRunsTheSelectedFrame : Obligations.StepRunsTheSelectedFrame := by
  intro s sender hw ha
  refine ⟨?delete, ?batch, ?label, ?nothing⟩
  case delete =>
    intro d ds hd
    exact step_framing_of_some (k := .delete) hw ha (by simp only [select, hd])
  case batch =>
    intro k cap hd hg hrow hids
    obtain ⟨-, rfl, hk⟩ := batchRow_iff.mp hrow
    obtain rfl := Cfg.subId_injective hids hk
    obtain ⟨d, ds, hd', -⟩ | ⟨-, -, hsel⟩ | ⟨-, hg', -⟩ | ⟨-, hg', -⟩ := select_cases s
    · exact nomatch hd.symm.trans hd'
    · rw [step_framing_of_some hw ha hsel, slots_eq_batchBody]
    · exact absurd hg' hg
    · exact absurd hg' hg
  case label =>
    intro l ls hd hg hl
    exact step_framing_of_some (k := .string) hw ha (by simp only [select, hd, hg, hl])
  case nothing =>
    intro hd hg hl
    exact step_framing_of_none hw ha (by simp only [select, hd, hg, hl])

end Sys2Proof.Machine

/-! Proofs of the statements on the agents around the block (44_environment.md): what an agent's
operation may write, the phases over a run of fast ticks, the frames over a run of sends, the
mailbox. -/

namespace Sys2Proof.Machine

open Sys2Proof Sys2Proof.Claims

/-- Any sequence of stagings leaves the agents alone. -/
@[simp] theorem stageAll_env (op : GraphicOp) (es : List (Queue × Shape)) (s : State) :
    (stageAll op es s).env = s.env := by
  induction es generalizing s with
  | nil => rfl
  | cons e es ih => rw [stageAll_cons, ih, stage_env]

/-- An agent's operation other than the consumer's `DECODE` writes the graphic and label queues, the
agents' own state and the model's fields, and nothing else. -/
theorem agent_frame {a : AgentOp} {s t : State} (ha : a ≠ .decodeReceived)
    (h : agent a s = .next t) :
    ∃ gq lq fresh env r,
      t = { s with gq := gq, lq := lq, fresh := fresh, env := env, result := r } := by
  cases a with
  | decodeReceived => exact absurd rfl ha
  | fastTick m =>
    obtain ⟨gq, lq, fresh, hstaged⟩ := stageAll_frame s.env.graphicOp (phaseBody s.env.phase m) s
      (phaseBody_ne_of_ne_graphics (by decide) s.env.phase m)
    obtain rfl := Host.Outcome.next.inj h
    exact ⟨gq, lq, fresh, _, _, by rw [fastTick, hstaged]; rfl⟩
  | slowTick =>
    obtain ⟨gq, lq, fresh, hstaged⟩ := stageAll_frame .add slowBundle
      { s with env := { s.env with graphicOp := .add, phase := 1 } } (by decide)
    obtain rfl := Host.Outcome.next.inj h
    exact ⟨gq, lq, fresh, _, _, by rw [slowTick, hstaged]; rfl⟩
  | send frame accepted =>
    obtain rfl := Host.Outcome.next.inj h
    cases accepted <;> exact ⟨_, _, _, _, _, rfl⟩
  | take =>
    obtain rfl := Host.Outcome.next.inj h
    unfold take
    split <;> exact ⟨_, _, _, _, _, rfl⟩
  | transferComplete | post | supplyScreen | startReceive | received | abortReceive =>
    obtain rfl := Host.Outcome.next.inj h
    exact ⟨_, _, _, _, _, rfl⟩

/-- Settles O59. The consumer's `DECODE` is the port's by definition; the others have the frame
above. -/
theorem agentsReachTheBlockThroughItsQueues : Obligations.AgentsReachTheBlockThroughItsQueues := by
  refine ⟨fun _ => rfl, fun a s t ha h => ?_⟩
  obtain ⟨gq, lq, fresh, env, r, rfl⟩ := agent_frame ha h
  exact ⟨rfl, rfl, rfl, rfl, rfl, rfl, rfl, rfl⟩

theorem agents_cons {a : AgentOp} {s t : State} (as : List AgentOp) (h : agent a s = .next t) :
    agents (a :: as) s = agents as t := by
  rw [agents, h]

/-- Fast ticks advance the phase once each, and the first of them sets the mode (R262). -/
theorem agents_fastTicks_env (ms : List ModeSnapshot) (s : State) :
    (agents (ms.map .fastTick) s).env = { s.env with
      phase := phaseNext^[ms.length] s.env.phase
      graphicOp := if ms = [] then s.env.graphicOp else .rewrite } := by
  induction ms generalizing s with
  | nil => rfl
  | cons m ms ih =>
    rw [List.map_cons, agents_cons _ (agent_fastTick m s), ih, State.answer_env]
    simp [fastTick]

theorem toNat_phaseNext {p : BitVec 3} (hp : p.toNat < 5) :
    (phaseNext p).toNat = (p.toNat + 1) % 5 := by
  rw [phaseNext, if_pos hp, BitVec.toNat_ofNat]
  omega

/-- `n` ticks advance a phase in range by `n` modulo 5. -/
theorem toNat_iterate_phaseNext {p : BitVec 3} (hp : p.toNat < 5) (n : Nat) :
    (phaseNext^[n] p).toNat = (p.toNat + n) % 5 := by
  induction n with
  | zero => exact (Nat.mod_eq_of_lt hp).symm
  | succ n ih =>
    rw [Function.iterate_succ_apply', toNat_phaseNext (by omega), ih]
    omega

/-- Settles O55: the environment after the ticks, read at the phase and at the mode. -/
theorem fastTicksVisitThePhasesInTurn : Obligations.FastTicksVisitThePhasesInTurn := by
  intro ms s hp
  rw [agents_fastTicks_env]
  exact ⟨toNat_iterate_phaseNext hp ms.length, fun hne => if_neg hne⟩

/-- Accepted sends release the frame in flight, then each other's, in order (R277, R279). -/
theorem agents_sends_env (frs : List Bytes) (last : Bytes) (s : State) :
    (agents ((frs ++ [last]).map (.send · true)) s).env = { s.env with
      inflight := some last
      released := s.env.released ++ s.env.inflight.toList ++ frs
      sendComplete := s.env.sendComplete + frs.length + 1 } := by
  induction frs generalizing s with
  | nil => simp [agents, agent, send]
  | cons fr frs ih =>
    rw [List.cons_append, List.map_cons, agents_cons _ (t := send fr true s) rfl, ih]
    simp [send]
    omega

/-- Settles O57: a refused send by definition, accepted ones by the induction above. -/
theorem sendsReleaseThePreviousBuffer : Obligations.SendsReleaseThePreviousBuffer :=
  ⟨fun _ _ => rfl, fun s frs last => agents_sends_env frs last s⟩

/-- Settles O58: a post by definition, a take by what the slot holds. -/
theorem mailboxHoldsTheLastPost : Obligations.MailboxHoldsTheLastPost := by
  intro s
  refine ⟨fun _ => rfl, fun e he => ?full, fun hnone => ?empty⟩
  case full => simp only [agent, take, he]
  case empty => simp only [agent, take, hnone]

end Sys2Proof.Machine

/-! Proofs of the statements on what the operations leave alone (10_state.md, 20_memory.md R59,
41_demux_decode.md section 2, 70_reset_and_hazards.md R351): one frame lemma for each family of
instructions, and from them one for every instruction. -/

namespace Sys2Proof.Machine

open Sys2Proof Sys2Proof.Claims

/-- A wire frame that answers writes the bank and the counter, and moves the cursor (R151 to R153).
-/
theorem wireFrame_frame {k : Field} {f : WireFrame} {s t : State} (h : wireFrame k f s = .next t) :
    ∃ T d n, t = State.advance n { s with T := T, dropcnt := d } := by
  obtain ⟨row, reg, -, -, -, ⟨-, hwire⟩ | ⟨-, hwire⟩⟩ | ⟨-, hwire⟩ | ⟨row, -, -, hwire⟩ :=
    wireFrame_cases k f s <;> rw [hwire] at h
  · obtain rfl := Host.Outcome.next.inj h
    exact ⟨_, _, _, rfl⟩
  · obtain rfl := Host.Outcome.next.inj h
    exact ⟨_, _, _, rfl⟩
  · cases h
  · cases h

/-- An outbound frame writes its queue, `TXB` and the result, and ends the operation (R235). -/
theorem runUi_frame {k : UiKind} {sender : Half} {body : Bytes} {s t : State}
    (h : runUi k sender body s = .next t) : ∃ q es fr, t = issued fr (s.setQueue q es) := by
  obtain ⟨q, m, framed, hrun⟩ := runUi_next k sender body s
  obtain rfl := Host.Outcome.next.inj (h.symm.trans hrun)
  rw [State.emit_eq_issued]
  obtain ⟨-, -, htake⟩ | ⟨-, hkept⟩ := State.dequeueFramed_cases q m framed body s
  · exact ⟨q, _, _, by rw [htake]⟩
  · exact ⟨q, s.queue q, _, by rw [hkept, State.setQueue_queue]⟩

/-- `PACK` writes what one outbound frame writes, or nothing but its result (R220, R228). -/
theorem exec_pack_frame {sender : Half} {s t : State} (h : exec (.pack sender) s = .next t) :
    (∃ q es fr, t = issued fr (s.setQueue q es)) ∨ t = ended .nothingPending s := by
  rw [exec_pack, execPack] at h
  split at h
  · exact .inl (runUi_frame h)
  · exact .inr (Host.Outcome.next.inj h).symm

/-- A read of a register that answers writes the result only (R32). -/
theorem exec_readField_frame {k : Half} {s t : State} (h : exec (.readField k) s = .next t) :
    ∃ r, t = s.answer r := by
  cases hb : s.T[k.toNat]? with
  | some b => exact ⟨_, Host.Outcome.next.inj (h.symm.trans (exec_readField_of_register hb))⟩
  | none =>
    change execReadField k s = _ at h
    rw [execReadField, hb] at h
    cases h

/-! The turns of a scan as functions of the state, whatever the configuration. -/

/-- One turn of a scan: what a step inside it runs (R140). -/
def turn (rest : Bytes) (s : State) : StepOutcome := runFetched (fetchWire rest s)

/-- A scan with turns left that answers has made its next turn. -/
theorem turn_of_scan_succ {n : Nat} {s t : State} {rx : Bytes} {cur : Nat}
    (ha : s.activity = .scanning rx cur) (h : scan (n + 1) s = .next t) :
    ∃ u, turn (rx.drop cur) s = .next u ∧ scan n u = .next t := by
  simp only [scan, ha] at h
  unfold turn fetchWire
  cases hturn : scanTurn (rx.drop cur) s with
  | moved u => exact ⟨u, rfl, by simpa only [hturn] using h⟩
  | unknown dl seq id =>
    simp only [hturn] at h
    obtain rfl := Host.Outcome.next.inj h
    exact ⟨_, rfl, scan_idle n rfl⟩
  | frame k f =>
    simp only [hturn] at h
    rw [runFetched_run, exec_ofField]
    split at h
    next u hrun => exact ⟨u, hrun, h⟩
    next => cases h
    next => cases h

theorem scan_succ_of_turn {n : Nat} {s u : State} {rx : Bytes} {cur : Nat}
    (ha : s.activity = .scanning rx cur) (h : turn (rx.drop cur) s = .next u) :
    scan (n + 1) s = scan n u := by
  simp only [scan, ha]
  unfold turn fetchWire at h
  cases hturn : scanTurn (rx.drop cur) s with
  | moved v =>
    rw [hturn] at h
    obtain rfl := Host.Outcome.next.inj h
    rfl
  | unknown dl seq id =>
    rw [hturn] at h
    obtain rfl := Host.Outcome.next.inj h
    exact (scan_idle n rfl).symm
  | frame k f =>
    rw [hturn, runFetched_run, exec_ofField] at h
    simp only [h]

theorem turn_cfg {rest : Bytes} {s u : State} (h : turn rest s = .next u) : u.cfg = s.cfg := by
  unfold turn fetchWire at h
  rw [scanTurn_eq] at h
  cases hd : decodeWire s.cfg rest with
  | frame row f =>
    rw [hd, runFetched_run, exec_ofField, runWire_eq] at h
    obtain ⟨T, d, n, rfl⟩ := wireFrame_frame h
    rfl
  | _ =>
    rw [hd] at h
    obtain rfl := Host.Outcome.next.inj h
    rfl

/-- Outside a scan there are no turns. -/
theorem scan_of_ne_scanning {s : State} (h : ∀ rx cur, s.activity ≠ .scanning rx cur) (n : Nat) :
    scan n s = .next s := by
  cases n with
  | zero => rfl
  | succ n => cases ha : s.activity <;> simp_all [scan]

/-- A scan that answers leaves the configuration alone (R351). -/
theorem scan_cfg {n : Nat} {s t : State} (h : scan n s = .next t) : t.cfg = s.cfg := by
  induction n generalizing s with
  | zero => rw [← Host.Outcome.next.inj h]
  | succ n ih =>
    cases ha : s.activity with
    | scanning rx cur =>
      obtain ⟨u, hturn, hrest⟩ := turn_of_scan_succ ha h
      exact (ih hrest).trans (turn_cfg hturn)
    | idle | framing =>
      rw [scan_of_ne_scanning (by simp [ha])] at h
      rw [← Host.Outcome.next.inj h]

theorem exec_decode_cfg {rx : Bytes} {s t : State} (h : exec (.decode rx) s = .next t) :
    t.cfg = s.cfg := by
  rw [exec_decode_eq_scan (length_le_of_exec_decode h)] at h
  exact (scan_cfg h).trans rfl

/-- What an instruction other than `RESET` and `DECODE` leaves alone: the configuration, the bank
and the counter unless it is a wire frame, `STATUS` unless it sets it, the idleness of the block. -/
structure Frame (i : Instr) (s t : State) : Prop where
  cfg : t.cfg = s.cfg
  idle : s.Idle → t.Idle
  telemetry : (∀ k f, i ≠ Instr.ofField k f) → t.T = s.T ∧ t.dropcnt = s.dropcnt
  status : i ≠ .setOffline → i ≠ .restart → t.status = s.status

theorem Frame.answer (i : Instr) (r : Result) (s : State) : Frame i s (s.answer r) :=
  ⟨rfl, id, fun _ => ⟨rfl, rfl⟩, fun _ _ => rfl⟩

theorem Frame.answer_setQueue (i : Instr) (q : Queue) (es : List Bytes) (r : Result) (s : State) :
    Frame i s ((s.setQueue q es).answer r) :=
  ⟨by simp, by simp [State.Idle], by simp, by simp⟩

theorem Frame.issued (i : Instr) (q : Queue) (es : List Bytes) (fr : Bytes) (s : State) :
    Frame i s (issued fr (s.setQueue q es)) :=
  ⟨by simp [Claims.issued], fun _ => rfl, by simp [Claims.issued], by simp [Claims.issued]⟩

/-- Every instruction other than `RESET` and `DECODE` has the frame. -/
theorem exec_frame {i : Instr} {s t : State} (h : exec i s = .next t) (hreset : i ≠ .reset)
    (hdecode : ∀ rx, i ≠ .decode rx) : Frame i s t := by
  induction i using Instr.families with
  | reset => exact absurd rfl hreset
  | decode rx => exact absurd rfl (hdecode rx)
  | push q e =>
    obtain ⟨es, r, rfl⟩ := push_frame ((exec_pushOf q e s).symm.trans h)
    exact .answer_setQueue _ q es r s
  | pop q =>
    obtain ⟨es, r, rfl⟩ := pop_frame ((exec_popOf q s).symm.trans h)
    exact .answer_setQueue _ q es r s
  | pack sender =>
    obtain ⟨q, es, fr, rfl⟩ | rfl := exec_pack_frame h
    · exact .issued _ q es fr s
    · exact ⟨rfl, fun _ => rfl, fun _ => ⟨rfl, rfl⟩, fun _ _ => rfl⟩
  | setOffline =>
    obtain rfl := Host.Outcome.next.inj h
    exact ⟨rfl, id, fun _ => ⟨rfl, rfl⟩, fun hne => absurd rfl hne⟩
  | restart =>
    obtain rfl := Host.Outcome.next.inj h
    exact ⟨rfl, id, fun _ => ⟨rfl, rfl⟩, fun _ hne => absurd rfl hne⟩
  | readField k =>
    obtain ⟨r, rfl⟩ := exec_readField_frame h
    exact .answer _ r s
  | graphicCount | readStatus | readDropcnt =>
    obtain rfl := Host.Outcome.next.inj h
    exact .answer _ _ s
  | portReserved => cases h
  | wire k f =>
    rw [exec_ofField, runWire_eq] at h
    obtain ⟨T, d, n, rfl⟩ := wireFrame_frame h
    refine ⟨rfl, fun hidle => ?_, fun hne => absurd rfl (hne k f), fun _ _ => rfl⟩
    rw [State.advance_idle { s with T := T, dropcnt := d } n hidle]
    exact hidle
  | unknown dl seq id =>
    obtain rfl := Host.Outcome.next.inj h
    exact ⟨rfl, fun _ => rfl, fun _ => ⟨rfl, rfl⟩, fun _ _ => rfl⟩
  | ui k sender body =>
    rw [exec_ofUi] at h
    obtain ⟨q, es, fr, rfl⟩ := runUi_frame h
    exact .issued _ q es fr s

/-- Settles O19: two clauses of the frame. -/
theorem onlyDecodeAndResetWriteTelemetry : Obligations.OnlyDecodeAndResetWriteTelemetry := by
  intro i s t h hreset hdecode
  have hframe := exec_frame h hreset hdecode
  exact ⟨hframe.telemetry, hframe.status⟩

/-- No instruction changes the configuration. -/
theorem exec_cfg {i : Instr} {s t : State} (h : exec i s = .next t) : t.cfg = s.cfg := by
  by_cases hreset : i = .reset
  · subst hreset
    rw [← Host.Outcome.next.inj h]
  by_cases hdecode : ∃ rx, i = .decode rx
  · obtain ⟨rx, rfl⟩ := hdecode
    exact exec_decode_cfg h
  · exact (exec_frame h hreset (not_exists.mp hdecode)).cfg

theorem agent_cfg {a : AgentOp} {s t : State} (h : agent a s = .next t) : t.cfg = s.cfg := by
  by_cases ha : a = .decodeReceived
  · subst ha
    exact exec_decode_cfg h
  · obtain ⟨gq, lq, fresh, env, r, rfl⟩ := agent_frame ha h
    rfl

/-- Settles O18: a step runs an instruction or an agent's operation, makes a turn of a scan, or
finds nothing to do; none changes the configuration. -/
theorem configurationNeverChanges : Obligations.ConfigurationNeverChanges := by
  refine ⟨fun i s t => exec_cfg, fun s t h => ?_⟩
  cases ha : s.activity with
  | idle =>
    obtain ⟨-, rfl⟩ | ⟨op, operand, rest, i, -, -, hexec⟩ | ⟨a, rest, -, hagent⟩ :=
      step_idle_cases ha h
    · rfl
    · exact exec_cfg (s := { s with inputs := rest }) hexec
    · exact agent_cfg (s := { s with inputs := rest }) hagent
  | scanning rx cur =>
    obtain ⟨t', ht', hturn⟩ := step_scanning (wf_of_step h) ha
    obtain rfl := Host.Outcome.next.inj (h.symm.trans ht')
    exact hturn.cfg_eq
  | framing sender =>
    obtain ⟨k, body, -, hrun⟩ | ⟨-, rfl⟩ := step_framing_cases ha h
    · exact exec_cfg ((exec_ofUi k sender body s).trans hrun)
    · rfl

/-- `DECODE` ends between operations: its effect ends the scan (R24). -/
theorem exec_decode_idle {rx : Bytes} {s t : State} (hw : s.cfg.WF)
    (h : exec (.decode rx) s = .next t) : t.Idle := by
  obtain ⟨e, -, rfl⟩ := hasEffect_of_exec_decode hw h
  rfl

theorem exec_idle {i : Instr} {s t : State} (hw : s.cfg.WF) (hidle : s.Idle)
    (h : exec i s = .next t) : t.Idle := by
  by_cases hreset : i = .reset
  · subst hreset
    rw [← Host.Outcome.next.inj h]
  by_cases hdecode : ∃ rx, i = .decode rx
  · obtain ⟨rx, rfl⟩ := hdecode
    exact exec_decode_idle hw h
  · exact (exec_frame h hreset (not_exists.mp hdecode)).idle hidle

theorem agent_idle {a : AgentOp} {s t : State} (hw : s.cfg.WF) (hidle : s.Idle)
    (h : agent a s = .next t) : t.Idle := by
  by_cases ha : a = .decodeReceived
  · subst ha
    exact exec_decode_idle hw h
  · obtain ⟨gq, lq, fresh, env, r, rfl⟩ := agent_frame ha h
    exact hidle

/-- Settles O17: what a step between operations runs leaves the block idle, a whole `DECODE` or
`PACK` included. -/
theorem stepEndsBetweenOperations : Obligations.StepEndsBetweenOperations := by
  intro s t hidle h
  have hw := wf_of_step h
  obtain ⟨-, rfl⟩ | ⟨op, operand, rest, i, -, -, hexec⟩ | ⟨a, rest, -, hagent⟩ :=
    step_idle_cases hidle h
  · exact hidle
  · exact exec_idle (s := { s with inputs := rest }) hw hidle hexec
  · exact agent_idle (s := { s with inputs := rest }) hw hidle hagent

/-! Independence (41_demux_decode.md section 2): DMX with other queues and another `TXB`, SQ and PF
with another bank, `STATUS` and counter. -/

/-- The state with other queues and another transmit buffer. -/
def State.withFraming (gq lq dq : List Bytes) (txb : Bytes) (s : State) : State :=
  { s with gq := gq, lq := lq, dq := dq, txb := txb }

/-- The state with another bank, another `STATUS` and another count. -/
def State.withTelemetry (T : List Bytes) (st : Status) (n : Nat) (s : State) : State :=
  { s with T := T, status := st, dropcnt := n }

section WithFraming

variable {gq lq dq : List Bytes} {txb : Bytes}

theorem wireFrame_withFraming {k : Field} {f : WireFrame} {s t : State}
    (h : wireFrame k f s = .next t) :
    wireFrame k f (s.withFraming gq lq dq txb) = .next (t.withFraming gq lq dq txb) := by
  obtain ⟨row, reg, hrow, hreg, hsize, -⟩ | ⟨-, hwire⟩ | ⟨row, -, -, hwire⟩ := wireFrame_cases k f s
  · have hwire := wireFrame_of_fits (s := s) hrow hreg hsize
    obtain rfl := Host.Outcome.next.inj (h.symm.trans hwire)
    rw [wireFrame_of_fits (s := s.withFraming gq lq dq txb) hrow hreg hsize,
      apply_ite (State.withFraming gq lq dq txb)]
    rfl
  · exact nomatch h.symm.trans hwire
  · exact nomatch h.symm.trans hwire

theorem turn_withFraming {rest : Bytes} {s u : State} (h : turn rest s = .next u) :
    turn rest (s.withFraming gq lq dq txb) = .next (u.withFraming gq lq dq txb) := by
  have hcfg : (s.withFraming gq lq dq txb).cfg = s.cfg := rfl
  unfold turn fetchWire at *
  rw [scanTurn_eq] at *
  rw [hcfg]
  cases hd : decodeWire s.cfg rest with
  | frame row f =>
    rw [hd, runFetched_run, exec_ofField, runWire_eq] at h
    simp only [runFetched_run, exec_ofField, runWire_eq]
    exact wireFrame_withFraming h
  | _ =>
    rw [hd] at h
    obtain rfl := Host.Outcome.next.inj h
    rfl

theorem scan_withFraming {n : Nat} {s t : State} (h : scan n s = .next t) :
    scan n (s.withFraming gq lq dq txb) = .next (t.withFraming gq lq dq txb) := by
  induction n generalizing s with
  | zero => rw [← Host.Outcome.next.inj h]; rfl
  | succ n ih =>
    cases ha : s.activity with
    | scanning rx cur =>
      obtain ⟨u, hturn, hrest⟩ := turn_of_scan_succ ha h
      rw [scan_succ_of_turn (s := s.withFraming gq lq dq txb) ha (turn_withFraming hturn), ih hrest]
    | idle | framing =>
      have hne : ∀ rx cur, s.activity ≠ .scanning rx cur := by simp [ha]
      rw [scan_of_ne_scanning hne] at h
      rw [scan_of_ne_scanning (s := s.withFraming gq lq dq txb) hne, Host.Outcome.next.inj h]

theorem exec_decode_withFraming {rx : Bytes} {s t : State} (h : exec (.decode rx) s = .next t) :
    exec (.decode rx) (s.withFraming gq lq dq txb) = .next (t.withFraming gq lq dq txb) := by
  have hl := length_le_of_exec_decode h
  rw [exec_decode_eq_scan hl] at h
  rw [exec_decode_eq_scan (s := s.withFraming gq lq dq txb) hl]
  exact scan_withFraming h

end WithFraming

section WithTelemetry

variable {T : List Bytes} {st : Status} {n : Nat}

theorem push_withTelemetry {q : Queue} {e : Bytes} {s t : State} (h : push q e s = .next t) :
    push q e (s.withTelemetry T st n) = .next (t.withTelemetry T st n) := by
  have hsize : e.length = q.elementBytes s.cfg := by
    by_contra hne
    exact nomatch h.symm.trans (if_pos hne)
  rw [push_of_elementBytes hsize] at h
  obtain rfl := Host.Outcome.next.inj h
  rw [push_of_elementBytes (s := s.withTelemetry T st n) hsize,
    apply_ite (State.withTelemetry T st n)]
  cases q <;> rfl

theorem pop_withTelemetry {q : Queue} {s t : State} (h : pop q s = .next t) :
    pop q (s.withTelemetry T st n) = .next (t.withTelemetry T st n) := by
  have hq : (s.withTelemetry T st n).queue q = s.queue q := by cases q <;> rfl
  rw [pop_eq] at *
  obtain rfl := Host.Outcome.next.inj h
  rw [hq]
  cases s.queue q with
  | nil => rfl
  | cons e rest => cases q <;> rfl

theorem exec_pack_withTelemetry {sender : Half} {s t : State}
    (h : exec (.pack sender) s = .next t) :
    exec (.pack sender) (s.withTelemetry T st n) = .next (t.withTelemetry T st n) := by
  obtain ⟨d, ds, hd, hpack⟩ | ⟨hd, hg, hpack⟩ | ⟨hd, hg, l, ls, hl, hpack⟩ | ⟨hd, hg, hl, hpack⟩ :=
    exec_pack_cases sender s <;> obtain rfl := Host.Outcome.next.inj (h.symm.trans hpack)
  · exact packFramesTheOldestDelete (s.withTelemetry T st n) sender d ds hd
  · have hrow : BatchRow s.cfg s.gq.length _ _ :=
      batchRow_iff.mpr ⟨List.length_pos_iff.mpr hg, rfl, rfl⟩
    exact packFramesABatch (s.withTelemetry T st n) sender _ _ hd hrow
  · exact packFramesTheOldestLabel (s.withTelemetry T st n) sender l ls hd hg hl
  · exact (packReportsNothingPending (s.withTelemetry T st n) sender).1 hd hg hl

end WithTelemetry

/-- Settles O20: `DECODE` turn by turn, and each operation of SQ and PF by its cases. -/
theorem decodeAndFramingAreIndependent : Obligations.DecodeAndFramingAreIndependent := by
  refine ⟨fun rx s t gq lq dq txb h => exec_decode_withFraming h, fun i s t T st n hi h => ?_⟩
  obtain ⟨op, rfl⟩ | rfl | ⟨sender, rfl⟩ := hi
  · cases op with
    | push q e =>
      exact (exec_pushOf q e _).trans (push_withTelemetry ((exec_pushOf q e s).symm.trans h))
    | pop q => exact (exec_popOf q _).trans (pop_withTelemetry ((exec_popOf q s).symm.trans h))
  · obtain rfl := Host.Outcome.next.inj h
    rfl
  · exact exec_pack_withTelemetry h

end Sys2Proof.Machine

/-! Proofs of the statements on the invariant (Safety.lean): it holds after reset, and each thing a
step can run keeps it. -/

namespace Sys2Proof.Machine

open Sys2Proof Sys2Proof.Claims

namespace State.Inv

/-- The reset state of a configuration that meets R5 meets the invariant. -/
theorem resetWith {c : Cfg} (hw : c.WF) : (State.resetWith c).Inv :=
  have ⟨_, _, _, hbank, _⟩ := hw
  { cfg := hw
    bank := hbank
    dropcnt := Nat.two_pow_pos _
    queues := fun q => by cases q <;> exact ⟨Nat.zero_le _, nofun⟩
    txb := Nat.zero_le _
    scan := trivial }

variable {s t : State}

/-- `RESET` gives the block the fields of the reset state. -/
theorem exec_reset (h : s.Inv) (hexec : exec .reset s = .next t) : t.Inv := by
  have hreset := resetWith h.cfg
  obtain rfl := Host.Outcome.next.inj hexec
  exact ⟨h.cfg, hreset.bank, hreset.dropcnt, hreset.queues, hreset.txb, trivial⟩

theorem push (h : s.Inv) {q : Queue} {e : Bytes} (hpush : Machine.push q e s = .next t) :
    t.Inv := by
  obtain ⟨-, heq⟩ | ⟨-, -, heq⟩ | ⟨hsize, hroom, heq⟩ := push_cases q e s <;> rw [heq] at hpush
  · cases hpush
  · rw [← Host.Outcome.next.inj hpush]
    exact h.answer _
  · have henq : s.enqueue q e = s.setQueue q (s.queue q ++ [e]) := if_neg hroom
    rw [← Host.Outcome.next.inj hpush, ← henq]
    exact (h.enqueue hsize).answer _

/-- A queue that has lost elements at its front is within its bounds. -/
theorem setQueue_drop (h : s.Inv) (q : Queue) (n : Nat) :
    (s.setQueue q ((s.queue q).drop n)).Inv := by
  obtain ⟨hcap, hsize⟩ := h.queues q
  exact h.setQueue (by rw [List.length_drop]; omega) fun e he => hsize e (List.mem_of_mem_drop he)

theorem pop (h : s.Inv) {q : Queue} (hpop : Machine.pop q s = .next t) : t.Inv := by
  obtain ⟨-, heq⟩ | ⟨e, rest, hqueue, heq⟩ := pop_cases q s <;>
    rw [← Host.Outcome.next.inj (heq.symm.trans hpop)]
  · exact h.answer _
  · have hrest : rest = (s.queue q).drop 1 := by rw [hqueue]; rfl
    rw [hrest]
    exact (h.setQueue_drop q 1).answer _

/-- The frame of a body within R5's bound fits `TXB` (R30, R235). -/
theorem issued (h : s.Inv) {fr : Bytes} (hfr : fr.length ≤ s.cfg.txbMax) : (issued fr s).Inv :=
  (h.txWrite hfr).finish _

theorem exec_pack (h : s.Inv) {sender : Half} (hexec : exec (.pack sender) s = .next t) :
    t.Inv := by
  obtain heq | ⟨q, n, sub, body, hbody, heq⟩ := exec_pack_of_inv h sender <;>
    rw [← Host.Outcome.next.inj (heq.symm.trans hexec)]
  · exact h.finish _
  · refine (h.setQueue_drop q n).issued ?_
    rw [Cfg.uiFrame_length, State.setQueue_cfg, Cfg.txbMax]
    omega

/-- `DECODE` turn by turn, each of which keeps the invariant. -/
theorem exec_decode (h : s.Inv) {rx : Bytes} (hexec : exec (.decode rx) s = .next t) : t.Inv := by
  have hl := length_le_of_exec_decode hexec
  have hstart : ((s.setStatus .running).scanningAt rx 0).Inv :=
    (h.setStatus .running).withActivity ⟨Nat.zero_le _, hl⟩
  obtain ⟨u, hscan, -, hu⟩ := scan_induction (fun _ u => u.Inv) State.Inv (rx.length + 1) 0
    ((s.setStatus .running).scanningAt rx 0) h.cfg rfl (by omega) (Nat.zero_le _) hstart
    fun _ _ _ ha hinv hturn =>
      have hv := hinv.scanStep ha hturn
      ⟨fun _ => hv, fun _ _ => hv⟩
  rw [exec_decode_eq_scan hl, hscan] at hexec
  rwa [← Host.Outcome.next.inj hexec]

theorem exec_readField (h : s.Inv) {k : Half} (hexec : exec (.readField k) s = .next t) :
    t.Inv := by
  obtain ⟨r, rfl⟩ := exec_readField_frame hexec
  exact h.answer r

/-- An operation that only returns a result keeps the invariant. -/
theorem answer_of_next (h : s.Inv) {r : Result}
    (hnext : (.next (s.answer r) : StepOutcome) = .next t) : t.Inv := by
  rw [← Host.Outcome.next.inj hnext]
  exact h.answer r

/-- The instruction of a port transaction keeps the invariant. -/
theorem exec_port (h : s.Inv) {c : Cfg} {op : BitVec 4} {operand : Bytes} {i : Instr}
    (hd : decodePort c op operand = .ok i) (hexec : exec i s = .next t) : t.Inv := by
  obtain rfl | rfl | rfl | rfl | rfl | rfl | rfl | rfl | rfl | rfl | rfl | rfl | rfl | rfl | rfl |
    rfl := port_forms hd
  · exact h.exec_reset hexec
  · exact h.exec_decode hexec
  · exact h.push (q := .graphics) hexec
  · exact h.push (q := .labels) hexec
  · exact h.push (q := .deletes) hexec
  · exact h.pop (q := .deletes) hexec
  · exact h.pop (q := .graphics) hexec
  · exact h.pop (q := .labels) hexec
  · exact h.answer_of_next hexec
  · exact h.exec_pack hexec
  · exact (h.setStatus .offline).answer_of_next hexec
  · exact (h.setStatus .offline).answer_of_next hexec
  · exact h.exec_readField hexec
  · exact h.answer_of_next hexec
  · exact h.answer_of_next hexec
  · cases hexec

/-- The agents' own state and the result are no part of the invariant. -/
theorem withEnvResult (h : s.Inv) (env : Env) (r : Result) :
    ({ s with env := env, result := r } : State).Inv :=
  (h.withEnv env).answer r

/-- A staged element keeps the invariant: it has its queue's size, and a full queue takes nothing.
-/
theorem stage (h : s.Inv) (op : GraphicOp) (q : Queue) (sh : Shape) : (stage op q sh s).Inv :=
  (h.enqueue (elementOf_length _ _ _ _ _)).withFresh _

theorem stageAll (h : s.Inv) (op : GraphicOp) (es : List (Queue × Shape)) :
    (stageAll op es s).Inv := by
  induction es generalizing s with
  | nil => exact h
  | cons e es ih => exact ih (h.stage op e.1 e.2)

theorem agent (h : s.Inv) {a : AgentOp} (hagent : agent a s = .next t) : t.Inv := by
  cases a with
  | decodeReceived => exact h.exec_decode hagent
  | fastTick m =>
    rw [← Host.Outcome.next.inj hagent]
    exact ((h.stageAll _ _).withEnv _).answer _
  | slowTick =>
    rw [← Host.Outcome.next.inj hagent]
    exact ((h.withEnv _).stageAll _ _).answer _
  | send frame accepted =>
    rw [← Host.Outcome.next.inj hagent]
    cases accepted <;> exact h.withEnvResult _ _
  | take =>
    rw [← Host.Outcome.next.inj hagent]
    unfold take
    split
    · exact h.withEnvResult _ _
    · exact h.answer _
  | transferComplete | post | supplyScreen | startReceive | received | abortReceive =>
    rw [← Host.Outcome.next.inj hagent]
    exact h.withEnvResult _ _

end State.Inv

/-- The configuration of the power-on state meets R5. -/
theorem cfgT_wf : Config.cfgT.WF := by decide +kernel

/-- Settles O15, with the test configuration for the power-on state. -/
theorem resetMeetsTheInvariant : Obligations.ResetMeetsTheInvariant :=
  ⟨State.Inv.resetWith cfgT_wf, fun _ hw => State.Inv.resetWith hw⟩

/-- Inside a `PACK` a step does what `PACK` does. -/
theorem step_framing_eq_exec_pack {s : State} {sender : Half} (hw : s.cfg.WF)
    (ha : s.activity = .framing sender) : step s = exec (.pack sender) s := by
  rw [exec_pack, execPack]
  split
  next k body hsel => rw [step_framing_of_some hw ha hsel, exec_ofUi]
  next hsel => exact step_framing_of_none hw ha hsel

/-- Settles O16, by what the block is inside of. -/
theorem stepKeepsTheInvariant : Obligations.StepKeepsTheInvariant := by
  intro s t hinv h
  cases ha : s.activity with
  | idle =>
    obtain ⟨-, rfl⟩ | ⟨op, operand, rest, i, -, hd, hexec⟩ | ⟨a, rest, -, hagent⟩ :=
      step_idle_cases ha h
    · exact hinv
    · exact (hinv.withInputs rest).exec_port hd hexec
    · exact (hinv.withInputs rest).agent hagent
  | scanning rx cur =>
    obtain ⟨t', ht', hturn⟩ := step_scanning hinv.cfg ha
    rw [Host.Outcome.next.inj (h.symm.trans ht')]
    exact hinv.scanStep ha hturn
  | framing sender =>
    exact hinv.exec_pack ((step_framing_eq_exec_pack hinv.cfg ha).symm.trans h)

end Sys2Proof.Machine

/-! Proofs of the statements on a step's dispatch, on what is refused and on the encodings written
out (20_memory.md section 4, 30_encoding.md, 60_exceptions.md R311). -/

namespace Sys2Proof.Machine

open Sys2Proof Sys2Proof.Claims

/-- Between operations a step runs what the oldest transaction asks for (R59). -/
theorem step_idle {s : State} (hw : s.cfg.WF) (ha : s.activity = .idle) :
    step s = runFetched (fetchInput s) := by
  rw [step_of_wf s hw, fetchHere, ha]

/-- Settles O1, by the oldest transaction. -/
theorem stepRunsTheOldestTransaction : Obligations.StepRunsTheOldestTransaction := by
  intro s rest hw ha
  rw [step_idle hw ha]
  refine ⟨fun op operand i hin hd => ?command, fun a hin => ?agent⟩
  case command => simp only [fetchInput, hin, hd, runFetched_run]
  case agent => simp only [fetchInput, hin, runFetched_agent]

/-- Settles O2: the turn that reads a frame and the turn that reads an unknown id. -/
theorem stepRunsTheWireInstructionAtTheCursor :
    Obligations.StepRunsTheWireInstructionAtTheCursor := by
  intro s rx cur hw ha
  have hstep : step s = runFetched (fetchWire (rx.drop cur) s) := by
    rw [step_of_wf s hw, fetchHere, ha]
  rw [hstep, fetchWire, scanTurn_eq]
  refine ⟨fun row f hd => ?frame, fun dl seq id hd => ?unknown⟩
  case frame => rw [hd]; rfl
  case unknown => rw [hd]; rfl

/-- Settles O4. `RESET` writes the fields of the reset state, which holds no transaction to take. -/
theorem resetRestoresEveryItem : Obligations.ResetRestoresEveryItem := by
  refine ⟨fun _ => rfl, fun c hw => ⟨rfl, ?_⟩⟩
  exact step_idle (s := State.resetWith c) hw rfl

/-- Settles O7: the bank has a register for each row and no more. -/
theorem readFieldOutOfRangeFaults : Obligations.ReadFieldOutOfRangeFaults := by
  intro s k hinv hk
  have hlen : s.T.length = s.cfg.ncmd := by simpa [Cfg.ncmd] using congrArg List.length hinv.bank
  have hnone : s.T[k.toNat]? = none := List.getElem?_eq_none (by omega)
  change execReadField k s = _
  rw [execReadField, hnone]

/-- Settles O9: each code is the table's (R22, R311). -/
theorem statusAndResultCodes : Obligations.StatusAndResultCodes :=
  ⟨rfl, rfl, rfl, fun _ _ => rfl, rfl, rfl, rfl, rfl, fun _ => rfl, fun _ => rfl⟩

/-- Settles O10, one clause for each refusal. -/
theorem outsideTheContractIsRefused : Obligations.OutsideTheContractIsRefused := by
  refine ⟨fun _ => rfl, fun s rx hl => if_pos hl, ?overlapping, ?illFormed⟩
  case overlapping =>
    intro s op₁ a₁ op₂ a₂ rest hw ha hin
    rw [step_idle hw ha]
    simp only [fetchInput, hin, runFetched_refuse]
  case illFormed =>
    intro s hw
    have hwf : s.cfg.wf = false := decide_eq_false hw
    rw [step, fetch, hwf]
    rfl

/-- A frame of a variant without a row is refused (log entry 14). -/
theorem wireFrame_of_no_row {k : Field} {f : WireFrame} {s : State} (h : s.cfg.rowOf k = none) :
    wireFrame k f s = .refused (.noCommandRow k) := by
  rw [wireFrame, h]

/-- A frame with a payload of another size than its row's is refused (log entry 14). -/
theorem wireFrame_of_size_ne {k : Field} {f : WireFrame} {s : State} {row : CmdRow}
    (h : s.cfg.rowOf k = some row) (hsize : f.payload.length ≠ row.size) :
    wireFrame k f s = .refused (.operandSize f.payload.length) := by
  obtain ⟨reg, hreg, -⟩ := Cfg.regOf_some h
  simp only [wireFrame, h, hreg, if_pos hsize]

/-- Settles O11: the pushes check the size first, and the frames their row and then its size. -/
theorem illFormedTermsAreRefused : Obligations.IllFormedTermsAreRefused := by
  refine ⟨fun s e => ⟨fun h => if_pos h, fun h => if_pos h, fun h => if_pos h⟩, fun s k f => ?_⟩
  rw [exec_ofField, runWire_eq]
  exact ⟨wireFrame_of_no_row, fun _ => wireFrame_of_size_ne⟩

/-- Settles O12: seven codes evaluated under CFG_T. -/
theorem writtenOutCodesDecode : Obligations.WrittenOutCodesDecode := by
  unfold Obligations.WrittenOutCodesDecode
  decide +kernel

/-- Settles O28: `F.UNKNOWN` ends the call with the state's cursor, in a scan the scan's. -/
theorem unknownIdEndsTheCall : Obligations.UnknownIdEndsTheCall := by
  intro s dl seq id
  have hexec : exec (.fUnknown dl seq id) s = .next (ended (.errUnknownCmd id s.cur) s) := rfl
  refine ⟨fun rx cur ha => ?_, s.cur, hexec⟩
  have hcur : s.cur = cur := by rw [State.cur, ha]
  rw [hexec, hcur]

/-- Settles O43: `0x0165 - 101 = 0x0100`, so both branches add 256. -/
theorem receiverAdds256 : Obligations.ReceiverAdds256 := by
  intro s
  unfold receiver
  refine ⟨?sum, fun h => if_pos h, fun h => ?low⟩
  case sum =>
    apply BitVec.eq_of_toNat_eq
    have h256 : (256 : Half).toNat = 256 := rfl
    rw [BitVec.toNat_add, h256]
    split
    next habove =>
      have hsum : s.toNat - 101 + 0x0165 = s.toNat + 256 := by omega
      rw [BitVec.toNat_ofNat, hsum]
    next => rw [BitVec.toNat_ofNat]
  case low =>
    rw [if_neg (by omega), BitVec.toNat_ofNat]
    omega

/-- Settles O60: the seven check values evaluated. -/
theorem referenceChecksumValues : Obligations.ReferenceChecksumValues := by
  unfold Obligations.ReferenceChecksumValues
  decide +kernel

end Sys2Proof.Machine
